-- ==== Sys2Proof/Word.lean ====
section
/-! DEFINITION. The word types of the engine (spec 00_scope.md R7): a command or register is 32 bits,
a block element 16 bits, a pixel channel 8 bits. Signed readings are `BitVec.toInt` (two's complement:
PRESUMED, spec 93 G3, log 13). -/

namespace Sys2Proof

/-- A command word or a register (10_state.md R26, 30_encoding.md R70). -/
abbrev Word := BitVec 32

/-- A block element, type `i16` (00_scope.md R5 `SAMPLE_BITS`). -/
abbrev Elem := BitVec 16

/-- A pixel channel, type `u8` (20_memory.md R51). -/
abbrev Byte := BitVec 8

/-- Eight mathematical integers: a row or a column of a block (00_scope.md R10). -/
abbrev Vec8 := Fin 8 → Int

/-- An 8×8 array of mathematical integers: the Transform Matrix, or the working array of 10_state.md R35. -/
abbrev Work := Fin 8 → Fin 8 → Int

/-- An 8×8 block of `i16`, row first, column second (00_scope.md R10). -/
abbrev Block := Fin 8 → Fin 8 → Elem

end Sys2Proof
end

