-- ==== Sys2Proof/Config.lean ====
section
/-! DEFINITION. What an implementation fixes (spec 00_scope.md R5, R6): the named constants, the record
`Cfg` of everything a configuration gives (frame size, Transform Matrix, Scale Table, `Luma`,
`ReconConv`) with the constraints of R6 as its proof fields, and `Config.hw`, the configuration of this
hardware. The values the spec leaves OPEN are opaque constants without a body (log 1 to log 4, log 8). -/

namespace Sys2Proof

namespace Config

/-- `SHIFT_T`, the right shift after each 1D pass (R5). -/
abbrev shiftT : Nat := 4
/-- `SHIFT_Q`, the quantisation shift (R5). -/
abbrev shiftQ : Nat := 5
/-- `M_MAX`, the largest magnitude of a Transform Matrix entry (R5). -/
abbrev mMax : Nat := 16
/-- `FRAME_W` of this hardware (R5). -/
abbrev frameW : Nat := 720
/-- `FRAME_H` of this hardware (R5). -/
abbrev frameH : Nat := 480
/-- `NCH`, 8-bit channels per pixel (R5). -/
abbrev nch : Nat := 3
/-- The largest value of the `ACC_BITS` = 32 bit signed accumulator (R5, 41_transform_1d.md R111). -/
abbrev accMax : Nat := 2147483647
/-- The least value of type `i16` (R7). -/
abbrev elemMin : Int := -32768
/-- The largest value of type `i16` (R7). -/
abbrev elemMax : Int := 32767
/-- The least element `DQT` accepts (43_quantization.md R142). -/
abbrev dqtMin : Int := -1024
/-- The largest element `DQT` accepts (43_quantization.md R142). -/
abbrev dqtMax : Int := 1023
/-- The luma weights in thousandths: 0.299, 0.587, 0.114 (R5 `W_R`, `W_G`, `W_B`). -/
abbrev weightedSum (r g b : Byte) : Nat := 299 * r.toNat + 587 * g.toNat + 114 * b.toNat
/-- The fewest significand digits of a float format the model allows, those of IEEE 754 binary16 (log 4). -/
abbrev floatBitsMin : Nat := 11
/-- One rounding of a float format with `p` significand digits, relative to the number rounded: one unit of the
last digit is at most this share of it (log 4). -/
def oneRounding (p : Nat) : Rat := 1 / 2 ^ (p - 1)
/-- Where R96 (d) begins to hold: at `255 * s` and one float rounding of it more. Within that rounding the spec
forbids a model to assume (d). -/
def reconHigh (p : Nat) (s : Rat) : Rat := 255 * s * (1 + oneRounding p)

end Config

/-- One configuration (R5), legal by construction: each constraint of R6 is a proof field, so a record
that breaks one cannot be built. That is the model's refusal of an illegal configuration. -/
structure Cfg where
  /-- `FRAME_W`. -/
  frameW : Nat
  /-- `FRAME_H`. -/
  frameH : Nat
  /-- `M[k][n]`: row `k`, column `n` (41_transform_1d.md R110). -/
  matrix : Work
  /-- `S(ox, oy)` (40_partition_reconstruct.md R97). -/
  scale : Fin 8 → Fin 8 → Rat
  /-- `Luma(R, G, B)` (40_partition_reconstruct.md R92). -/
  luma : Byte → Byte → Byte → Elem
  /-- `ReconConv(v, s)` (40_partition_reconstruct.md R96). -/
  recon : Elem → Rat → Byte
  /-- The significand digits of the float format `ReconConv` divides in, which the source does not name
  (91 N4); it only says how wide "one float rounding" of R96 (d) is (log 4). -/
  floatBits : Nat
  /-- R6 (c). -/
  frameW_pos : 0 < frameW
  /-- R6 (c). -/
  frameH_pos : 0 < frameH
  /-- R6 (c). -/
  frameW_mul : frameW % 8 = 0
  /-- R6 (c). -/
  frameH_mul : frameH % 8 = 0
  /-- R6 (a). -/
  matrix_bound : ∀ k n, (matrix k n).natAbs ≤ Config.mMax
  /-- R6 (b); finite because it is a rational number. -/
  scale_pos : ∀ ox oy, 0 < scale ox oy
  /-- R92 (b). -/
  luma_le : ∀ r g b, (luma r g b).toNat ≤ 255
  /-- R92 (c): the exact truncation `t`, or `t - 1` only at an exact multiple of 1000. -/
  luma_near : ∀ r g b, (luma r g b).toNat = Config.weightedSum r g b / 1000 ∨
    (Config.weightedSum r g b % 1000 = 0 ∧ (luma r g b).toNat + 1 = Config.weightedSum r g b / 1000)
  /-- R96 (c). -/
  recon_nonpos : ∀ v s, 0 < s → v.toInt ≤ 0 → recon v s = 0
  /-- The float format is no shorter than binary16 (log 4). -/
  floatBits_min : Config.floatBitsMin ≤ floatBits
  /-- R96 (d): 255 from `255 * s` on, but not within one float rounding of it. -/
  recon_high : ∀ v s, 0 < s → Config.reconHigh floatBits s ≤ (v.toInt : Rat) → recon v s = 255
  /-- R96 (e). -/
  recon_one : ∀ v, 0 ≤ v.toInt → v.toInt ≤ 255 → ((recon v 1).toNat : Int) = v.toInt

/-- `BPR`, blocks per row of the grid (R5). -/
abbrev Cfg.bpr (c : Cfg) : Nat := c.frameW / 8
/-- `BPC`, blocks per column of the grid (R5). -/
abbrev Cfg.bpc (c : Cfg) : Nat := c.frameH / 8
/-- `NBLK`, blocks in the grid (R5). -/
abbrev Cfg.nblk (c : Cfg) : Nat := c.bpr * c.bpc
/-- `NPIX`, pixels in a frame (R5). -/
abbrev Cfg.npix (c : Cfg) : Nat := c.frameW * c.frameH
/-- The number of bytes of `PIN` and of `POUT` (20_memory.md R50). -/
abbrev Cfg.pinSize (c : Cfg) : Nat := Config.nch * c.npix
/-- The number of elements of `GRID` (20_memory.md R50). -/
abbrev Cfg.gridSize (c : Cfg) : Nat := 64 * c.nblk

namespace Config

/-- The OPEN values of the Transform Matrix (91 N1, 92 D5), each an entry plus 16, so that the bound
`M_MAX` of R6 (a) holds by type. FREE: no body (log 1). -/
opaque matrixCode : Fin 8 → Fin 8 → Fin 33

/-- The OPEN values of the Scale Table (91 N2, 92 D6) as pairs: numerator minus 1, denominator minus 1.
FREE: no body (log 2). -/
opaque scaleCode : Fin 8 → Fin 8 → Nat × Nat

/-- Whether the float sum of `Luma` lands just under an exact integer (R92 (c), 91 N3).
FREE: no body (log 3). -/
opaque lumaUnder : Byte → Byte → Byte → Bool

/-- `ReconConv` where R96 (c), (d), (e) do not fix it (91 N4). FREE: no body (log 4). -/
opaque reconOpen : Elem → Rat → Byte

/-- By how many significand digits the float format of `ReconConv` is longer than binary16 (91 N4).
FREE: no body (log 4). -/
opaque floatBitsExtra : Nat

/-- What a host read of a `PIN` byte nothing has written returns, after a given number of resets, at a
given offset (93 U12, 10_state.md R37). FREE: no body (log 8). -/
opaque freePin : Nat → Nat → Byte

/-- The same for `POUT` (93 U12, 70_reset_and_hazards.md R189). FREE: no body (log 8). -/
opaque freePout : Nat → Nat → Byte

/-- The Transform Matrix of this hardware. -/
def hwMatrix : Work := fun k n => ((matrixCode k n).val : Int) - 16

/-- The Scale Table of this hardware: any positive rational number. -/
def hwScale : Fin 8 → Fin 8 → Rat := fun ox oy =>
  (((scaleCode ox oy).1 + 1 : Nat) : Rat) / (((scaleCode ox oy).2 + 1 : Nat) : Rat)

/-- `Luma` of this hardware: every function R92 (a) to (d) allows, chosen by `lumaUnder`. -/
def hwLuma (r g b : Byte) : Elem :=
  let t := weightedSum r g b / 1000
  if weightedSum r g b % 1000 = 0 ∧ t ≠ 0 ∧ lumaUnder r g b = true then BitVec.ofNat 16 (t - 1)
  else BitVec.ofNat 16 t

/-- The significand digits of this hardware's float format (log 4). -/
def hwFloatBits : Nat := floatBitsMin + floatBitsExtra

/-- `ReconConv` of this hardware: every function R96 (a) to (e) allows, chosen by `reconOpen`. -/
def hwRecon (v : Elem) (s : Rat) : Byte :=
  if v.toInt ≤ 0 then 0
  else if reconHigh hwFloatBits s ≤ (v.toInt : Rat) then 255
  else if s = 1 then BitVec.ofInt 8 v.toInt
  else reconOpen v s

theorem weightedSum_le (r g b : Byte) : weightedSum r g b ≤ 255000 := by
  have hr := r.isLt
  have hg := g.isLt
  have hb := b.isLt
  simp only [weightedSum]
  omega

theorem hwMatrix_bound (k n : Fin 8) : (hwMatrix k n).natAbs ≤ mMax := by
  have h := (matrixCode k n).isLt
  simp only [hwMatrix, mMax]
  omega

theorem hwScale_pos (ox oy : Fin 8) : 0 < hwScale ox oy := by
  simp only [hwScale]
  positivity

theorem hwLuma_toNat (r g b : Byte) :
    (hwLuma r g b).toNat = weightedSum r g b / 1000 ∨
      (weightedSum r g b % 1000 = 0 ∧ (hwLuma r g b).toNat + 1 = weightedSum r g b / 1000) := by
  have h := weightedSum_le r g b
  simp only [hwLuma]
  split
  · rename_i c
    right
    refine ⟨c.1, ?_⟩
    rw [BitVec.toNat_ofNat]
    omega
  · left
    rw [BitVec.toNat_ofNat]
    omega

theorem hwLuma_le (r g b : Byte) : (hwLuma r g b).toNat ≤ 255 := by
  have h := weightedSum_le r g b
  rcases hwLuma_toNat r g b with h' | ⟨_, h'⟩ <;> omega

theorem oneRounding_pos (p : Nat) : 0 < oneRounding p := by
  simp only [oneRounding]
  positivity

theorem oneRounding_le {p : Nat} (hp : floatBitsMin ≤ p) : oneRounding p ≤ 1 / 1024 := by
  have h : (2 : Rat) ^ 10 ≤ 2 ^ (p - 1) := pow_le_pow_right₀ (by norm_num) (by simp only [floatBitsMin] at hp; omega)
  simp only [oneRounding]
  rw [div_le_div_iff₀ (by positivity) (by norm_num)]
  linarith

theorem lt_reconHigh (p : Nat) {s : Rat} (hs : 0 < s) : 255 * s < reconHigh p s := by
  have h := mul_pos hs (oneRounding_pos p)
  simp only [reconHigh]
  linarith

theorem hwRecon_high (v : Elem) (s : Rat) (hs : 0 < s) (h : reconHigh hwFloatBits s ≤ (v.toInt : Rat)) :
    hwRecon v s = 255 := by
  have hv : ¬ v.toInt ≤ 0 := by
    intro hle
    have : (v.toInt : Rat) ≤ 0 := by exact_mod_cast hle
    have := lt_reconHigh hwFloatBits hs
    linarith
  simp [hwRecon, hv, h]

theorem hwRecon_one (v : Elem) (h0 : 0 ≤ v.toInt) (h1 : v.toInt ≤ 255) :
    ((hwRecon v 1).toNat : Int) = v.toInt := by
  by_cases hz : v.toInt ≤ 0
  · simp only [hwRecon, if_pos hz]
    simp
    omega
  · have h2 : ¬ (reconHigh hwFloatBits 1 ≤ (v.toInt : Rat)) := by
      intro h
      have h3 := lt_reconHigh hwFloatBits (s := 1) one_pos
      have h4 : (v.toInt : Rat) ≤ 255 := by exact_mod_cast h1
      linarith
    simp only [hwRecon, if_neg hz, if_neg h2, if_true]
    rw [BitVec.toNat_ofInt]
    omega

/-- The configuration of this hardware: the frame of R5 and the OPEN values as opaque constants. -/
def hw : Cfg where
  frameW := frameW
  frameH := frameH
  matrix := hwMatrix
  scale := hwScale
  luma := hwLuma
  recon := hwRecon
  floatBits := hwFloatBits
  frameW_pos := by decide
  frameH_pos := by decide
  frameW_mul := by decide
  frameH_mul := by decide
  matrix_bound := hwMatrix_bound
  scale_pos := hwScale_pos
  luma_le := hwLuma_le
  luma_near := hwLuma_toNat
  recon_nonpos := fun v s _ h => by simp [hwRecon, h]
  floatBits_min := Nat.le_add_right _ _
  recon_high := hwRecon_high
  recon_one := hwRecon_one

end Config

end Sys2Proof
end

