-- ==== Sys2Proof/Syntax.lean ====
section
/-! DEFINITION. The thirteen commands of spec 30_encoding.md R73, one constructor for each row of the
opcode table, and the four pseudo-instructions of R78. The only operand is `blk` (R72). -/

namespace Sys2Proof

/-- A command (30_encoding.md R73). The operand is the 16-bit field `blk` (R72). -/
inductive Instr where
  | part
  | fwd2d (blk : BitVec 16)
  | fwd2dG
  | qnt (blk : BitVec 16)
  | qntG
  | dqt (blk : BitVec 16)
  | dqtG
  | inv2d (blk : BitVec 16)
  | inv2dG
  | recon
  | run
  | fwd1d
  | inv1d
  deriving DecidableEq, Repr

/-- A pseudo-instruction of the assembler (30_encoding.md R78, 44_pipeline.md R154). -/
inductive Pseudo where
  | qdq (blk : BitVec 16)
  | qdqG
  | codec (blk : BitVec 16)
  | codecG
  deriving DecidableEq, Repr

end Sys2Proof
end

