-- ==== Sys2Proof/WellFormed.lean ====
section
/-! DEFINITION. Which commands can be encoded: a block operand names a block of the grid
(spec 30_encoding.md R72, R75 (e)). -/

namespace Sys2Proof

/-- The command is legal on a grid of `nblk` blocks (R72: `b < NBLK`). -/
def Instr.wfOn (nblk : Nat) : Instr → Bool
  | .part => true
  | .fwd2d b => decide (b.toNat < nblk)
  | .fwd2dG => true
  | .qnt b => decide (b.toNat < nblk)
  | .qntG => true
  | .dqt b => decide (b.toNat < nblk)
  | .dqtG => true
  | .inv2d b => decide (b.toNat < nblk)
  | .inv2dG => true
  | .recon => true
  | .run => true
  | .fwd1d => true
  | .inv1d => true

/-- The command is legal on this hardware, whose grid has `NBLK` = 5400 blocks (R72, R75 (e)). -/
def Instr.wf (i : Instr) : Bool := i.wfOn Config.hw.nblk

end Sys2Proof
end

