-- ==== Sys2Proof/Decode.lean ====
section
/-! DEFINITION. The command word (spec 30_encoding.md R70, R71), the decoder, total on all 2^32 words
and rejecting by name (R75, R79), the encoder from the same table (R73), and the expansions of the
pseudo-instructions (R78). -/

namespace Sys2Proof

/-- Field `opcode`, bits 31:24 (R71). -/
def opcodeOf (w : Word) : BitVec 8 := w.extractLsb' 24 8
/-- Field `zero`, bits 23:17 (R71). -/
def zeroOf (w : Word) : BitVec 7 := w.extractLsb' 17 7
/-- Field `G`, bit 16 (R71). -/
def gOf (w : Word) : BitVec 1 := w.extractLsb' 16 1
/-- Field `blk`, bits 15:0 (R71). -/
def blkOf (w : Word) : BitVec 16 := w.extractLsb' 0 16

/-- Why a word is illegal: the five cases (a) to (e) of R75. -/
inductive Illegal where
  /-- R75 (a). -/
  | opcode
  /-- R75 (b). -/
  | zeroField
  /-- R75 (c). -/
  | strayField
  /-- R75 (d). -/
  | gridBlk
  /-- R75 (e). -/
  | blockRange
  deriving DecidableEq, Repr

/-- What the decoder makes of a word (R79). -/
inductive Decoded where
  | command (i : Instr)
  | illegal (r : Illegal)
  deriving DecidableEq, Repr

/-- A command that takes neither `G` nor `blk` (R74, R75 (c)). -/
def decodeWhole (i : Instr) (w : Word) : Decoded :=
  if gOf w = 0 ∧ blkOf w = 0 then .command i else .illegal .strayField

/-- A block command: its grid form, its single form, or an illegal word (R74, R75 (d), (e)). -/
def decodeBlock (nblk : Nat) (single : BitVec 16 → Instr) (grid : Instr) (w : Word) : Decoded :=
  if gOf w = 1 then
    if blkOf w = 0 then .command grid else .illegal .gridBlk
  else if (blkOf w).toNat < nblk then .command (single (blkOf w))
  else .illegal .blockRange

/-- The decoder of R79 on a grid of `nblk` blocks. -/
def decodeOn (nblk : Nat) (w : Word) : Decoded :=
  if zeroOf w ≠ 0 then .illegal .zeroField
  else if opcodeOf w = 0x01 then decodeWhole .part w
  else if opcodeOf w = 0x02 then decodeBlock nblk .fwd2d .fwd2dG w
  else if opcodeOf w = 0x03 then decodeBlock nblk .qnt .qntG w
  else if opcodeOf w = 0x04 then decodeBlock nblk .dqt .dqtG w
  else if opcodeOf w = 0x05 then decodeBlock nblk .inv2d .inv2dG w
  else if opcodeOf w = 0x06 then decodeWhole .recon w
  else if opcodeOf w = 0x07 then decodeWhole .run w
  else if opcodeOf w = 0x10 then decodeWhole .fwd1d w
  else if opcodeOf w = 0x11 then decodeWhole .inv1d w
  else .illegal .opcode

/-- The decoder of this hardware (R79). -/
def decode (w : Word) : Decoded := decodeOn Config.hw.nblk w

/-- A word from its fields, the `zero` field 0 (R71). -/
def commandWord (op : BitVec 8) (g : BitVec 1) (blk : BitVec 16) : Word := op ++ 0#7 ++ g ++ blk

/-- The word of a command (R73). -/
def encode : Instr → Word
  | .part => commandWord 0x01 0 0
  | .fwd2d b => commandWord 0x02 0 b
  | .fwd2dG => commandWord 0x02 1 0
  | .qnt b => commandWord 0x03 0 b
  | .qntG => commandWord 0x03 1 0
  | .dqt b => commandWord 0x04 0 b
  | .dqtG => commandWord 0x04 1 0
  | .inv2d b => commandWord 0x05 0 b
  | .inv2dG => commandWord 0x05 1 0
  | .recon => commandWord 0x06 0 0
  | .run => commandWord 0x07 0 0
  | .fwd1d => commandWord 0x10 0 0
  | .inv1d => commandWord 0x11 0 0

/-- What a pseudo-instruction stands for, in order (R78). -/
def expand : Pseudo → List Instr
  | .qdq b => [.qnt b, .dqt b]
  | .qdqG => [.qntG, .dqtG]
  | .codec b => [.fwd2d b, .qnt b, .dqt b, .inv2d b]
  | .codecG => [.fwd2dG, .qntG, .dqtG, .inv2dG]

/-- The command word whose lowest `nbits` bits are those of `w`, the others 0. -/
def tableWord (nbits w : Nat) : Word := BitVec.ofNat 32 (w % 2 ^ nbits)

/-- What the decoder reads from the table's bits: `none` where it refuses the word. A command is one
32-bit word (R70), so its bits are numbered as the table numbers them. -/
def decodeTableWord (nbits w : Nat) : Option Instr :=
  match decode (tableWord nbits w) with
  | .command i => some i
  | .illegal _ => none

end Sys2Proof
end

