-- ==== Sys2Proof/Machine/Arith.lean ====
section
/-! DEFINITION. The arithmetic primitives of spec 00_scope.md R8 over mathematical integers, and the
sums, transposes and tests over eight lanes that the units share. -/

namespace Sys2Proof.Machine

/-- `asr(v, s)`: the arithmetic right shift, floor of `v / 2^s` (R8; log 12). -/
def asr (v : Int) (s : Nat) : Int := v / 2 ^ s

/-- `shl(v, s)`: the exact left shift (R8). -/
def shl (v : Int) (s : Nat) : Int := v * 2 ^ s

/-- `clamp(v, lo, hi)` (R8). -/
def clamp (v lo hi : Int) : Int := if v < lo then lo else if hi < v then hi else v

/-- `sat16(v)`: the silent clamp to `i16` (R8, 42_transform_2d.md R127). -/
def sat16 (v : Int) : Int := clamp v Config.elemMin Config.elemMax

/-- A value of type `i16` as the element that stores it. -/
def toElem (v : Int) : Elem := BitVec.ofInt 16 v

/-- The sum over the eight lanes. -/
def sum8 (f : Vec8) : Int := f 0 + f 1 + f 2 + f 3 + f 4 + f 5 + f 6 + f 7

/-- The sum of eight magnitudes. -/
def sumNat8 (f : Fin 8 → Nat) : Nat := f 0 + f 1 + f 2 + f 3 + f 4 + f 5 + f 6 + f 7

/-- Every lane passes. -/
def all8 (p : Fin 8 → Bool) : Bool := p 0 && p 1 && p 2 && p 3 && p 4 && p 5 && p 6 && p 7

/-- The lowest lane that fails, if one does (60_exceptions.md R167: the lowest index is reported). -/
def firstFailing8 (p : Fin 8 → Bool) : Option (Fin 8) :=
  List.find? (fun k => !p k) [0, 1, 2, 3, 4, 5, 6, 7]

/-- `transpose(X)[i][j] = X[j][i]` (R10). -/
def transpose (X : Work) : Work := fun i j => X j i

end Sys2Proof.Machine
end

