-- ==== Sys2Proof/Machine/State.lean ====
section
/-! DEFINITION. The state (spec 10_state.md R21 to R37), the host's actions (70_reset_and_hazards.md
R193), the model's own stops, and the state after reset (R37). -/

namespace Sys2Proof.Machine

/-- The four spaces of 20_memory.md R50 that have offsets of a bounded range. -/
inductive Space where
  | pin
  | pout
  | grid
  deriving DecidableEq, Repr

/-- One action of the host (70_reset_and_hazards.md R185, R193). A write of register 0x00 issues a
command (10_state.md R30). -/
inductive HostAction where
  | writeReg (number : Nat) (value : Word)
  | readReg (number : Nat)
  | writePin (offset : Nat) (value : Byte)
  | readPin (offset : Nat)
  | writePout (offset : Nat) (value : Byte)
  | readPout (offset : Nat)
  | writeGrid (element : Nat) (value : Elem)
  | readGrid (element : Nat)
  | reset
  deriving DecidableEq, Repr

/-- What a host read returns: one whole element of its space (20_memory.md R55). -/
inductive HostData where
  | reg (value : Word)
  | byte (value : Byte)
  | elem (value : Elem)
  deriving DecidableEq, Repr

/-- The model's own stops at an address that does not exist. The hardware's three faults are no stops:
they are taken as next states (60_exceptions.md R165). -/
inductive Fault where
  /-- Raised by a host access outside its space: the model has no such access (20_memory.md R56, 93 U9).
  Safe: the model stops where a bus would answer something. Log 10. -/
  | offsetOutOfRange (space : Space) (offset : Nat)
  deriving DecidableEq, Repr

/-- Where the model has no meaning for a command. -/
inductive Refusal where
  /-- An instruction without a meaning, refused by `exec` by name. No arm answers so. Safe. -/
  | notModelled (mnemonic : String)
  /-- Raised by `PART` and `RUN` where a byte of `PIN` has not been written since reset: the spec says a
  model refuses it (70_reset_and_hazards.md R189, 10_state.md R37, 93 U12). Safe. Log 9. -/
  | unwrittenPin
  deriving DecidableEq, Repr

/-- The state of the machine. `CMD` is no storage cell (10_state.md R30) and has no field. -/
structure State where
  /-- The 1D engine's source vector (10_state.md R21). -/
  vs : Vector Word 8
  /-- The 1D engine's destination vector (R22). -/
  vd : Vector Word 8
  /-- `STATUS` (R27). -/
  status : Word
  /-- `FINFO` (R28). -/
  finfo : Word
  /-- `IN_W`, its 16 used bits (R29). -/
  inW : BitVec 16
  /-- `IN_H`, its 16 used bits (R29). -/
  inH : BitVec 16
  /-- `PIN`, the bytes something has written, by rising offset (R32). -/
  pin : List Host.Cell
  /-- `POUT`, the bytes something has written, by rising offset (R33). -/
  pout : List Host.Cell
  /-- `GRID`, the elements that are not 0, by rising element index (R34; log 11). -/
  grid : List (Nat × Elem)
  /-- The index of the next command (R23); a number of the model, no register. -/
  pc : Nat
  /-- MODEL's own: what the host has still to do, in order (R185; log 5). -/
  pending : List HostAction
  /-- MODEL's own: what the host's latest read returned (log 7). -/
  lastRead : Option HostData
  /-- MODEL's own: how many resets there have been, the index of the free values (log 8). -/
  epoch : Nat
  deriving DecidableEq, Repr

/-- What a step or a command answers. -/
abbrev Result := Host.Outcome State Fault Refusal

/-- The state after reset (10_state.md R37, 70_reset_and_hazards.md R181): every register 0, every grid
element 0, no byte of `PIN` or `POUT` written; the model's own fields as log 5, log 7 and log 8 name. -/
def State.reset : State where
  vs := Vector.replicate 8 0
  vd := Vector.replicate 8 0
  status := 0
  finfo := 0
  inW := 0
  inH := 0
  pin := []
  pout := []
  grid := []
  pc := 0
  pending := []
  lastRead := none
  epoch := 0

/-- The state with `vs` replaced. -/
def State.withVs (s : State) (x : Vector Word 8) : State := { s with vs := x }
/-- The state with `vd` replaced. -/
def State.withVd (s : State) (x : Vector Word 8) : State := { s with vd := x }
/-- The state with `status` replaced. -/
def State.withStatus (s : State) (x : Word) : State := { s with status := x }
/-- The state with `finfo` replaced. -/
def State.withFinfo (s : State) (x : Word) : State := { s with finfo := x }
/-- The state with `inW` replaced. -/
def State.withInW (s : State) (x : BitVec 16) : State := { s with inW := x }
/-- The state with `inH` replaced. -/
def State.withInH (s : State) (x : BitVec 16) : State := { s with inH := x }
/-- The state with `pin` replaced. -/
def State.withPin (s : State) (x : List Host.Cell) : State := { s with pin := x }
/-- The state with `pout` replaced. -/
def State.withPout (s : State) (x : List Host.Cell) : State := { s with pout := x }
/-- The state with `grid` replaced. -/
def State.withGrid (s : State) (x : List (Nat × Elem)) : State := { s with grid := x }
/-- The state with `pc` replaced. -/
def State.withPc (s : State) (x : Nat) : State := { s with pc := x }
/-- The state with `pending` replaced. -/
def State.withPending (s : State) (x : List HostAction) : State := { s with pending := x }
/-- The state with `lastRead` replaced. -/
def State.withLastRead (s : State) (x : Option HostData) : State := { s with lastRead := x }
/-- The state with `epoch` replaced. -/
def State.withEpoch (s : State) (x : Nat) : State := { s with epoch := x }

end Sys2Proof.Machine
end

