-- ==== Sys2Proof/Machine/Flags.lean ====
section
/-! DEFINITION. The engine has no flags, condition codes or predicates (spec 10_state.md R25): no command
computes one. What stands here are the conditions that decide between a command's effect and a fault (the
overflow guard R111, the range of `DQT` R142, the declared shape R163), and the fields of `STATUS` (R27). -/

namespace Sys2Proof.Machine

/-- The sum of the magnitudes of the eight products (41_transform_1d.md R111). -/
def guardSum (w x : Vec8) : Nat := sumNat8 fun i => (w i).natAbs * (x i).natAbs

/-- `Guard(w, x)` of R111: no 32-bit accumulator can wrap, whatever order it adds in. -/
def guardOk (w x : Vec8) : Bool := decide (guardSum w x ≤ Config.accMax)

/-- The element can be shifted left by 5 within 16 bits (43_quantization.md R142). -/
def fitsDqt (v : Elem) : Bool := decide (Config.dqtMin ≤ v.toInt) && decide (v.toInt ≤ Config.dqtMax)

/-- Every element of the block can be shifted left by 5 (R142). -/
def blockFits (X : Block) : Bool := all8 fun r => all8 fun col => fitsDqt (X r col)

/-- The declared shape is the frame's (60_exceptions.md R163). -/
def shapeOk (c : Cfg) (s : State) : Bool :=
  decide (s.inW.toNat = c.frameW) && decide (s.inH.toNat = c.frameH)

/-- `STATUS.FAULT`, bit 0 (10_state.md R27). -/
def faultBit (status : Word) : BitVec 1 := status.extractLsb' 0 1

/-- `STATUS.CAUSE`, bits 7:4 (10_state.md R27). -/
def causeOf (status : Word) : BitVec 4 := status.extractLsb' 4 4

/-- The engine has faulted: `STATUS.FAULT = 1`. -/
def faulted (s : State) : Bool := decide (faultBit s.status = 1)

/-- `STATUS` with `CAUSE` replaced and `FAULT` set, its other bits kept (60_exceptions.md R165). -/
def statusFaulted (status : Word) (cause : BitVec 4) : Word :=
  status.extractLsb' 8 24 ++ cause ++ status.extractLsb' 1 3 ++ 1#1

end Sys2Proof.Machine
end

