-- ==== Sys2Proof/Machine/Operands.lean ====
section
/-! DEFINITION. Where the operands of a command lie: the pixel layout (spec 20_memory.md R51), the grid
layout (R53) and the mapping between them (40_partition_reconstruct.md R90, R91). There are no immediates,
registers or addressing modes (30_encoding.md R72). -/

namespace Sys2Proof.Machine

/-- The offset in `PIN` or `POUT` of channel `ch` of the pixel `(px, py)` (R51). -/
def pixelOffset (c : Cfg) (px py ch : Nat) : Nat := Config.nch * (py * c.frameW + px) + ch

/-- The index of block `(bx, by)` (R53; the operand pair of 30_encoding.md R77). -/
def blockIndex (c : Cfg) (bx yb : Nat) : Nat := bx + yb * c.bpr

/-- The element index of row `r`, column `col` of block `b` (R53). -/
def elemIndex (b r col : Nat) : Nat := b * 64 + r * 8 + col

/-- The block that owns the pixel `(px, py)` (R90). -/
def pixelBlock (c : Cfg) (px py : Nat) : Nat := blockIndex c (px / 8) (py / 8)

/-- The element index of the pixel `(px, py)`: row `py mod 8`, column `px mod 8` of its block (R91; log 12). -/
def pixelElem (c : Cfg) (px py : Nat) : Nat := elemIndex (pixelBlock c px py) (py % 8) (px % 8)

/-- A number modulo 8 as a row, a column or an intra-block offset. -/
def lane (n : Nat) : Fin 8 := Fin.ofNat 8 n

end Sys2Proof.Machine
end

