-- ==== Sys2Proof/Machine/Ops.lean ====
section
/-! DEFINITION. The named operations every command is written with: counted loops, the memories and the
grid in their one canonical form, the lanes of the vector registers, completing a command (spec
10_state.md R23) and raising a fault (60_exceptions.md R165). -/

namespace Sys2Proof.Machine

/-- `for i in 0 .. n-1: a <- f i a`. -/
def forRange {α : Type} (n : Nat) (f : Nat → α → α) (a : α) : α :=
  match n with
  | 0 => a
  | n + 1 => f n (forRange n f a)

/-- The pixels in row-major order, `py` outer and `px` inner (10_state.md R24): pixel index
`p = py * FRAME_W + px` rising (20_memory.md R51). -/
def forPixels {α : Type} (c : Cfg) (f : Nat → Nat → α → α) (a : α) : α :=
  forRange c.npix (fun p => f (p % c.frameW) (p / c.frameW)) a

/-- What the list gives at address `a`: `none` where nothing is listed. -/
def Memory.lookup {w : Nat} (m : List (Nat × BitVec w)) (a : Nat) : Option (BitVec w) :=
  match m with
  | [] => none
  | (k, x) :: t => if k = a then some x else Memory.lookup t a

/-- Store `v` at `a`, keeping the addresses rising. -/
def Memory.put {w : Nat} (m : List (Nat × BitVec w)) (a : Nat) (v : BitVec w) : List (Nat × BitVec w) :=
  match m with
  | [] => [(a, v)]
  | (k, x) :: t =>
    if k < a then (k, x) :: Memory.put t a v
    else if k = a then (a, v) :: t
    else (a, v) :: (k, x) :: t

/-- Remove what is listed at `a`. -/
def Memory.erase {w : Nat} (m : List (Nat × BitVec w)) (a : Nat) : List (Nat × BitVec w) :=
  m.filter fun x => decide (x.1 ≠ a)

/-- The canonical form: addresses strictly rising and below `size`. -/
abbrev Memory.wf {w : Nat} (size : Nat) (m : List (Nat × BitVec w)) : Prop :=
  m.Pairwise (fun x y => x.1 < y.1) ∧ ∀ x ∈ m, x.1 < size

/-- The canonical form of `GRID`: also no element listed that is 0, the value an unlisted element reads
as (10_state.md R37). -/
abbrev Memory.gridWf (size : Nat) (g : List (Nat × Elem)) : Prop :=
  Memory.wf size g ∧ ∀ x ∈ g, x.2 ≠ 0

/-- What an unlisted element of `GRID` reads as: 0 (10_state.md R34, R37: "default-zero"). -/
def gridDefault : Elem := 0

/-- `MemRead(GRID, e, 2)` (00_scope.md R9). -/
def gridRead (g : List (Nat × Elem)) (e : Nat) : Elem := (Memory.lookup g e).getD gridDefault

/-- `MemWrite(GRID, e, 2, v)` (00_scope.md R9); writing the default removes the entry. -/
def gridWrite (g : List (Nat × Elem)) (e : Nat) (v : Elem) : List (Nat × Elem) :=
  if v = gridDefault then Memory.erase g e else Memory.put g e v

/-- `GRID[b]`: all 64 elements of block `b` (20_memory.md R55). -/
def blockRead (g : List (Nat × Elem)) (b : Nat) : Block := fun r col => gridRead g (elemIndex b r col)

/-- `GRID[b] <- X`: all 64 elements of block `b`, in rising element index. -/
def blockWrite (g : List (Nat × Elem)) (b : Nat) (X : Block) : List (Nat × Elem) :=
  forRange 64 (fun i h => gridWrite h (elemIndex b (i / 8) (i % 8)) (X (lane (i / 8)) (lane i))) g

/-- `GRID[b] <- f(GRID[b])`: all 64 elements are read before one is written (20_memory.md R55). -/
def blockUpdate (f : Block → Block) (g : List (Nat × Elem)) (b : Nat) : List (Nat × Elem) :=
  blockWrite g b (f (blockRead g b))

/-- `for b in 0 .. n-1: GRID[b] <- f(GRID[b])`, in grid index order (44_pipeline.md R152). -/
def gridUpdate (f : Block → Block) (n : Nat) (g : List (Nat × Elem)) : List (Nat × Elem) :=
  forRange n (fun b h => blockUpdate f h b) g

/-- The lanes of a vector register file as integers (10_state.md R21). -/
def lanes (v : Vector Word 8) : Vec8 := fun i => (v[i.val]).toInt

/-- A vector register file from eight integers of type `i32` (10_state.md R22). -/
def ofLanes (x : Vec8) : Vector Word 8 := Vector.ofFn fun i => BitVec.ofInt 32 (x i)

/-- The command has completed: `pc <- pc + 1` (10_state.md R23). -/
def complete (s : State) : Result := .next (s.withPc (s.pc + 1))

/-- The hardware's faults (60_exceptions.md R160). -/
inductive HwFault where
  | inputShape
  | arithOverflow
  | illegalCommand
  deriving DecidableEq, Repr

/-- The cause codes of R160. -/
def causeCode : HwFault → BitVec 4
  | .inputShape => 1
  | .arithOverflow => 2
  | .illegalCommand => 3

/-- `raise F(info)` (60_exceptions.md R165): `STATUS` and `FINFO` are written, the command ends, `pc` is
not advanced, and the `CMD` write completes: the machine goes on. -/
def raise (f : HwFault) (info : Word) (s : State) : Result :=
  .next ((s.withStatus (statusFaulted s.status (causeCode f))).withFinfo info)

/-- The check of `PART` and `RUN` before anything is touched (60_exceptions.md R163); the information word
is `IN_H ++ IN_W` (R160). -/
def whenShapeOk (c : Cfg) (s : State) (body : Result) : Result :=
  if shapeOk c s then body else raise .inputShape (s.inH ++ s.inW) s

/-- A command on the one block `blk`. A block index `>= NBLK` is an illegal command (60_exceptions.md
R161); the decoder refuses it first, so it is met only on an ill-formed instruction (log 14). -/
def onBlock (c : Cfg) (blk : BitVec 16) (word : Word) (s : State) (body : Nat → Result) : Result :=
  if blk.toNat < c.nblk then body blk.toNat else raise .illegalCommand word s

end Sys2Proof.Machine
end

