-- ==== Sys2Proof/Machine/Partition.lean ====
section
/-! DEFINITION. The block partition and grid indexer: `PART` (spec 40_partition_reconstruct.md R90 to R94)
and `RECON` (R95 to R97). -/

namespace Sys2Proof.Machine

/-- `Luma` of the pixel `(px, py)`, channel 0 red, 1 green, 2 blue (20_memory.md R52, R92); `none` where
one of its three bytes has no value (70_reset_and_hazards.md R189). -/
def pixelLuma (c : Cfg) (pin : List Host.Cell) (px py : Nat) : Option Elem :=
  (Memory.lookup pin (pixelOffset c px py 0)).bind fun r =>
  (Memory.lookup pin (pixelOffset c px py 1)).bind fun g =>
  (Memory.lookup pin (pixelOffset c px py 2)).map fun b => c.luma r g b

/-- The body of `PART`: every pixel's luma into its element of the grid (R93). -/
def partGrid (c : Cfg) (pin : List Host.Cell) (grid : List (Nat × Elem)) : Option (List (Nat × Elem)) :=
  forPixels c (fun px py acc => acc.bind fun g =>
    (pixelLuma c pin px py).map fun l => gridWrite g (pixelElem c px py) l) (some grid)

/-- Go on with the partitioned grid; refused where `PIN` was not fully written (R189). -/
def withPartition (c : Cfg) (s : State) (k : List (Nat × Elem) → Result) : Result :=
  match partGrid c s.pin s.grid with
  | some g => k g
  | none => .refused .unwrittenPin

/-- `PART` on a configuration (R93). -/
def partOn (c : Cfg) (s : State) : Result :=
  whenShapeOk c s (withPartition c s fun g => complete (s.withGrid g))

/-- `PART` (R93). -/
def execPart (s : State) : Result := partOn Config.hw s

/-- The output value of the pixel `(px, py)`: its element through `ReconConv` with the Scale Table entry of
its intra-block offset, `ox` first and `oy` second (R95, R97). -/
def pixelOut (c : Cfg) (grid : List (Nat × Elem)) (px py : Nat) : Byte :=
  c.recon (gridRead grid (pixelElem c px py)) (c.scale (lane px) (lane py))

/-- One grey value into the three channels of the pixel `(px, py)` (R95). -/
def pixelStore (c : Cfg) (m : List Host.Cell) (px py : Nat) (o : Byte) : List Host.Cell :=
  Memory.put (Memory.put (Memory.put m (pixelOffset c px py 0) o) (pixelOffset c px py 1) o)
    (pixelOffset c px py 2) o

/-- The body of `RECON` (R95). -/
def reconPout (c : Cfg) (grid : List (Nat × Elem)) (pout : List Host.Cell) : List Host.Cell :=
  forPixels c (fun px py m => pixelStore c m px py (pixelOut c grid px py)) pout

/-- `RECON` on a configuration (R95): no shape check, no fault. -/
def reconOn (c : Cfg) (s : State) : Result := complete (s.withPout (reconPout c s.grid s.pout))

/-- `RECON` (R95). -/
def execRecon (s : State) : Result := reconOn Config.hw s

end Sys2Proof.Machine
end

