-- ==== Sys2Proof/Machine/Quantize.lean ====
section
/-! DEFINITION. The quantization unit: `QNT b`, `QNT.G` (spec 43_quantization.md R140, R141), `DQT b`, `DQT.G`
(R142, R143). -/

namespace Sys2Proof.Machine

/-- `asr(v, 5)` of an element (R140). -/
def quantElem (v : Elem) : Elem := toElem (asr v.toInt Config.shiftQ)

/-- `shl(v, 5)` of an element (R142). -/
def dequantElem (v : Elem) : Elem := toElem (shl v.toInt Config.shiftQ)

/-- Every element of a block quantised (R140). -/
def quantBlock (X : Block) : Block := fun r col => quantElem (X r col)

/-- Every element of a block dequantised (R142). -/
def dequantBlock (X : Block) : Block := fun r col => dequantElem (X r col)

/-- `QNT b` on a configuration (R140). -/
def qntOn (c : Cfg) (blk : BitVec 16) (s : State) : Result :=
  onBlock c blk (encode (.qnt blk)) s fun b => complete (s.withGrid (blockUpdate quantBlock s.grid b))

/-- `QNT b` (R140). -/
def execQnt (blk : BitVec 16) (s : State) : Result := qntOn Config.hw blk s

/-- `QNT.G` on a configuration (R141, 44_pipeline.md R152). -/
def qntGOn (c : Cfg) (s : State) : Result := complete (s.withGrid (gridUpdate quantBlock c.nblk s.grid))

/-- `QNT.G` (R141). -/
def execQntG (s : State) : Result := qntGOn Config.hw s

/-- `DQT b` on a configuration: all 64 elements are checked before one is written (R142). -/
def dqtOn (c : Cfg) (blk : BitVec 16) (s : State) : Result :=
  onBlock c blk (encode (.dqt blk)) s fun b =>
    if blockFits (blockRead s.grid b) then complete (s.withGrid (blockUpdate dequantBlock s.grid b))
    else raise .arithOverflow (BitVec.ofNat 32 b) s

/-- `DQT b` (R142). -/
def execDqt (blk : BitVec 16) (s : State) : Result := dqtOn Config.hw blk s

/-- Some element of block `b` is listed; a block with none is all 0 and fits (R142: "Zero stays zero"), so
`firstOverflow` need not read it. `firstOverflow_eq_find` in Laws shows that skipping it changes nothing. -/
def blockListed (g : List (Nat × Elem)) (b : Nat) : Bool := g.any fun x => decide (x.1 / 64 = b)

/-- The lowest block index below `n` with an element `DQT` cannot shift, if there is one (R143; log 15). -/
def firstOverflow (n : Nat) (g : List (Nat × Elem)) : Option Nat :=
  (List.range n).find? fun b => blockListed g b && !blockFits (blockRead g b)

/-- `DQT.G` on a configuration (R143): on a fault at block `b` the blocks below `b` have been dequantised,
block `b` and all later ones are unchanged. -/
def dqtGOn (c : Cfg) (s : State) : Result :=
  match firstOverflow c.nblk s.grid with
  | some b => raise .arithOverflow (BitVec.ofNat 32 b) (s.withGrid (gridUpdate dequantBlock b s.grid))
  | none => complete (s.withGrid (gridUpdate dequantBlock c.nblk s.grid))

/-- `DQT.G` (R143). -/
def execDqtG (s : State) : Result := dqtGOn Config.hw s

end Sys2Proof.Machine
end

