-- ==== Sys2Proof/Machine/Transform1D.lean ====
section
/-! DEFINITION. The 1D integer transform engine: `FWD1D` (spec 41_transform_1d.md R112) and `INV1D` (R113). -/

namespace Sys2Proof.Machine

/-- Column `n` of the matrix, the coefficients of `INV1D`'s output `n` (R111, R113). -/
def column (m : Work) (n : Fin 8) : Vec8 := fun k => m k n

/-- The sum of eight products (R114). -/
def dot (w x : Vec8) : Int := sum8 fun i => w i * x i

/-- `Fwd1D(x)[k] = asr(sum_n M[k][n] * x[n], 4)` (R114). -/
def fwd1D (m : Work) (x : Vec8) : Vec8 := fun k => asr (dot (m k) x) Config.shiftT

/-- `Inv1D(x)[n] = asr(sum_k M[k][n] * x[k], 4)`: the matrix indexed transposed (R114). -/
def inv1D (m : Work) (x : Vec8) : Vec8 := fun n => asr (dot (column m n) x) Config.shiftT

/-- A 1D command with the coefficient vectors `w` and the result `y`: all eight guards first, the smallest
failing index reported and nothing written; else `VD <- y` (R112, R113). -/
def vectorCmd (w : Fin 8 → Vec8) (y : Vec8) (s : State) : Result :=
  match firstFailing8 fun k => guardOk (w k) (lanes s.vs) with
  | some k => raise .arithOverflow (BitVec.ofNat 32 k.val) s
  | none => complete (s.withVd (ofLanes y))

/-- `FWD1D` on a configuration (R112). -/
def fwd1dOn (c : Cfg) (s : State) : Result := vectorCmd c.matrix (fwd1D c.matrix (lanes s.vs)) s

/-- `FWD1D` (R112). -/
def execFwd1d (s : State) : Result := fwd1dOn Config.hw s

/-- `INV1D` on a configuration (R113). -/
def inv1dOn (c : Cfg) (s : State) : Result := vectorCmd (column c.matrix) (inv1D c.matrix (lanes s.vs)) s

/-- `INV1D` (R113). -/
def execInv1d (s : State) : Result := inv1dOn Config.hw s

end Sys2Proof.Machine
end

