-- ==== Sys2Proof/Machine/Transform2D.lean ====
section
/-! DEFINITION. The 2D separable transform controller: `FWD2D b`, `FWD2D.G` (spec 42_transform_2d.md R120,
R122, R128), `INV2D b`, `INV2D.G` (R123, R125, R129). The working array is not clamped between the passes
(R120) and no guard is checked, because none can fail (R126; log 15). -/

namespace Sys2Proof.Machine

/-- A block's elements as integers. -/
def blockInts (X : Block) : Work := fun r col => (X r col).toInt

/-- `sat16` of every value, as a block (R120, R127). -/
def satBlock (D : Work) : Block := fun i j => toElem (sat16 (D i j))

/-- Pass 1 of `Fwd2D`, array `A`: the 1D forward primitive on every row (R120). -/
def fwdPass1 (m : Work) (X : Block) : Work := fun r => fwd1D m (blockInts X r)

/-- Pass 2 of `Fwd2D`, array `C`: the 1D forward primitive on every row of `B`, the transpose of `A` (R120). -/
def fwdPass2 (m : Work) (X : Block) : Work := fun i => fwd1D m (transpose (fwdPass1 m X) i)

/-- `Fwd2D(X)` (R120): transpose back, clamp. -/
def fwd2D (m : Work) (X : Block) : Block := satBlock (transpose (fwdPass2 m X))

/-- Pass 1 of `Inv2D`, array `P`: the 1D inverse primitive on every column (R123). -/
def invPass1 (m : Work) (X : Block) : Work := fun i col => inv1D m (column (blockInts X) col) i

/-- Pass 2 of `Inv2D`, array `R`: the 1D inverse primitive on every column of `Q`, the transpose of `P`
(R123). -/
def invPass2 (m : Work) (X : Block) : Work := fun i col => inv1D m (column (transpose (invPass1 m X)) col) i

/-- `Inv2D(C)` (R123): transpose back, clamp. -/
def inv2D (m : Work) (X : Block) : Block := satBlock (transpose (invPass2 m X))

/-- `FWD2D b` on a configuration (R122). -/
def fwd2dOn (c : Cfg) (blk : BitVec 16) (s : State) : Result :=
  onBlock c blk (encode (.fwd2d blk)) s fun b =>
    complete (s.withGrid (blockUpdate (fwd2D c.matrix) s.grid b))

/-- `FWD2D b` (R122). -/
def execFwd2d (blk : BitVec 16) (s : State) : Result := fwd2dOn Config.hw blk s

/-- `FWD2D.G` on a configuration (R128, 44_pipeline.md R152). -/
def fwd2dGOn (c : Cfg) (s : State) : Result :=
  complete (s.withGrid (gridUpdate (fwd2D c.matrix) c.nblk s.grid))

/-- `FWD2D.G` (R128). -/
def execFwd2dG (s : State) : Result := fwd2dGOn Config.hw s

/-- `INV2D b` on a configuration (R125). -/
def inv2dOn (c : Cfg) (blk : BitVec 16) (s : State) : Result :=
  onBlock c blk (encode (.inv2d blk)) s fun b =>
    complete (s.withGrid (blockUpdate (inv2D c.matrix) s.grid b))

/-- `INV2D b` (R125). -/
def execInv2d (blk : BitVec 16) (s : State) : Result := inv2dOn Config.hw blk s

/-- `INV2D.G` on a configuration (R129, 44_pipeline.md R152). -/
def inv2dGOn (c : Cfg) (s : State) : Result :=
  complete (s.withGrid (gridUpdate (inv2D c.matrix) c.nblk s.grid))

/-- `INV2D.G` (R129). -/
def execInv2dG (s : State) : Result := inv2dGOn Config.hw s

end Sys2Proof.Machine
end

