-- ==== Sys2Proof/Machine/Pipeline.lean ====
section
/-! DEFINITION. `RUN`: one whole pipeline run (spec 44_pipeline.md R150). -/

namespace Sys2Proof.Machine

/-- The four middle stages over the whole grid, stage by stage (R150). -/
def codecGrid (c : Cfg) (g : List (Nat × Elem)) : List (Nat × Elem) :=
  gridUpdate (inv2D c.matrix) c.nblk
    (gridUpdate dequantBlock c.nblk
      (gridUpdate quantBlock c.nblk
        (gridUpdate (fwd2D c.matrix) c.nblk g)))

/-- `RUN` on a configuration (R150): the shape check, `PART`, the four middle stages, `RECON`, one step of
`pc`. The grid is left holding the inverse-transformed blocks. -/
def runOn (c : Cfg) (s : State) : Result :=
  whenShapeOk c s (withPartition c s fun g =>
    complete ((s.withGrid (codecGrid c g)).withPout (reconPout c (codecGrid c g) s.pout)))

/-- `RUN` (R150). -/
def execRun (s : State) : Result := runOn Config.hw s

end Sys2Proof.Machine
end

