-- ==== Sys2Proof/Machine/Dispatch.lean ====
section
/-! DEFINITION. `exec`: one arm for each command (spec 30_encoding.md R73), each a direct call of its meaning. -/

namespace Sys2Proof.Machine

def exec (i : Instr) (s : State) : Host.Outcome State Fault Refusal :=
  match i with
  | .part => Sys2Proof.Machine.execPart s
  | .fwd2d blk => Sys2Proof.Machine.execFwd2d blk s
  | .fwd2dG => Sys2Proof.Machine.execFwd2dG s
  | .qnt blk => Sys2Proof.Machine.execQnt blk s
  | .qntG => Sys2Proof.Machine.execQntG s
  | .dqt blk => Sys2Proof.Machine.execDqt blk s
  | .dqtG => Sys2Proof.Machine.execDqtG s
  | .inv2d blk => Sys2Proof.Machine.execInv2d blk s
  | .inv2dG => Sys2Proof.Machine.execInv2dG s
  | .recon => Sys2Proof.Machine.execRecon s
  | .run => Sys2Proof.Machine.execRun s
  | .fwd1d => Sys2Proof.Machine.execFwd1d s
  | .inv1d => Sys2Proof.Machine.execInv1d s

end Sys2Proof.Machine
end

