-- ==== Sys2Proof/Machine/HostPort.lean ====
section
/-! DEFINITION. The host's port (spec 10_state.md R26 to R30, 20_memory.md R50, R56, R62,
70_reset_and_hazards.md R180, R181, R193): every action the host can take between commands, and issuing a
command by writing `CMD`. -/

namespace Sys2Proof.Machine

/-- A write of `w` to `CMD` (R30): discarded while `STATUS.FAULT = 1` (60_exceptions.md R166), else decoded
(30_encoding.md R79) and executed, or `IllegalCommand` (R161). -/
def cmdWrite (w : Word) (s : State) : Result :=
  if faulted s then .next s
  else match decode w with
    | .command i => exec i s
    | .illegal _ => raise .illegalCommand w s

/-- A host write of a register (R26): read-only registers and numbers without a register ignore it;
`IN_W` and `IN_H` keep the low half (R29). -/
def writeReg (number : Nat) (v : Word) (s : State) : Result :=
  if number = 0x00 then cmdWrite v s
  else if number = 0x03 then .next (s.withInW (v.extractLsb' 0 16))
  else if number = 0x04 then .next (s.withInH (v.extractLsb' 0 16))
  else if 0x10 ≤ number ∧ number ≤ 0x17 then .next (s.withVs (s.vs.setIfInBounds (number - 0x10) v))
  else .next s

/-- What a host read of a register returns (R26): `CMD` and numbers without a register read 0. -/
def regValue (number : Nat) (s : State) : Word :=
  if number = 0x01 then s.status
  else if number = 0x02 then s.finfo
  else if number = 0x03 then s.inW.setWidth 32
  else if number = 0x04 then s.inH.setWidth 32
  else if 0x10 ≤ number ∧ number ≤ 0x17 then s.vs.getD (number - 0x10) 0
  else if 0x18 ≤ number ∧ number ≤ 0x1F then s.vd.getD (number - 0x18) 0
  else 0

/-- What a host read of a `PIN` byte returns; any value where nothing has written it (93 U12; log 8). -/
def pinValue (a : Nat) (s : State) : Byte := (Memory.lookup s.pin a).getD (Config.freePin s.epoch a)

/-- What a host read of a `POUT` byte returns; any value where nothing has written it (R189; log 8). -/
def poutValue (a : Nat) (s : State) : Byte := (Memory.lookup s.pout a).getD (Config.freePout s.epoch a)

/-- A host read returns `d` and changes nothing else (20_memory.md R55). -/
def answer (d : HostData) (s : State) : Result := .next (s.withLastRead (some d))

/-- An access inside its space; outside it the model has no such access (R56; log 10). -/
def inSpace (size : Nat) (space : Space) (a : Nat) (body : Result) : Result :=
  if a < size then body else .fault (.offsetOutOfRange space a)

/-- Reset (R180, R181): the state of 10_state.md R37; the host's list and what it has read are the host's,
and the free values of unwritten bytes are new ones (log 8). -/
def resetMachine (s : State) : State :=
  ((State.reset.withPending s.pending).withLastRead s.lastRead).withEpoch (s.epoch + 1)

/-- One action of the host, on a configuration (R193). -/
def hostActOn (c : Cfg) (a : HostAction) (s : State) : Result :=
  match a with
  | .writeReg n v => writeReg n v s
  | .readReg n => answer (.reg (regValue n s)) s
  | .writePin o v => inSpace c.pinSize .pin o (.next (s.withPin (Memory.put s.pin o v)))
  | .readPin o => inSpace c.pinSize .pin o (answer (.byte (pinValue o s)) s)
  | .writePout o v => inSpace c.pinSize .pout o (.next (s.withPout (Memory.put s.pout o v)))
  | .readPout o => inSpace c.pinSize .pout o (answer (.byte (poutValue o s)) s)
  | .writeGrid e v => inSpace c.gridSize .grid e (.next (s.withGrid (gridWrite s.grid e v)))
  | .readGrid e => inSpace c.gridSize .grid e (answer (.elem (gridRead s.grid e)) s)
  | .reset => .next (resetMachine s)

/-- One action of the host on this hardware. -/
def hostAct (a : HostAction) (s : State) : Result := hostActOn Config.hw a s

/-- The first of the host's remaining actions; with none left the engine is idle and holds all its state
(60_exceptions.md R171; log 5). -/
def nextAction (s : State) : Result :=
  match s.pending with
  | [] => .next s
  | a :: rest => hostAct a (s.withPending rest)

/-- The host's next action becomes the write of the command word `w` to `CMD` (10_state.md R30). -/
def placeCommand (w : Word) (s : State) : State := s.withPending (.writeReg 0x00 w :: s.pending)

end Sys2Proof.Machine
end

