-- ==== Sys2Proof/Machine/Step.lean ====
section
/-! DEFINITION. One step: the host's next action, a whole command where that action is a write to `CMD`
(spec 20_memory.md R58: a command is one indivisible step). -/

namespace Sys2Proof.Machine

/-- One step (70_reset_and_hazards.md R185). -/
def step (s : State) : Host.Outcome State Fault Refusal := nextAction s

/-- The state with the command word of the table's bits as the very next thing the host writes to `CMD`
(log 6). -/
def State.withFetchWord (s : State) (nbits w : Nat) : State := placeCommand (tableWord nbits w) s

end Sys2Proof.Machine
end

