-- ==== Sys2Proof/Safety.lean ====
section
/-! DEFINITION. What counts as a good state and a good run: the canonical form of the memories, a fault record
that describes a fault of spec 60_exceptions.md R160, the invariant made of the two, and the end of a run
(70_reset_and_hazards.md R185). -/

namespace Sys2Proof.Machine

/-- The three memories are in canonical form: addresses rising and inside their space (20_memory.md R50), no
element of `GRID` listed that is 0. -/
def memoriesOk (s : State) : Prop :=
  Memory.wf Config.hw.pinSize s.pin ∧ Memory.wf Config.hw.pinSize s.pout ∧
    Memory.gridWf Config.hw.gridSize s.grid

/-- The word is refused by the decoder (30_encoding.md R75). -/
def isIllegal (w : Word) : Bool :=
  match decode w with
  | .illegal _ => true
  | .command _ => false

/-- `STATUS` and `FINFO` record no fault, or one fault of R160 with the information that belongs to it
(10_state.md R27, R28): a shape that is not the frame's, an index of a block or of an output element, or
an illegal word. -/
def recordOk (s : State) : Prop :=
  (s.status = 0x00 ∧ s.finfo = 0) ∨
  (s.status = 0x11 ∧ s.finfo ≠ BitVec.ofNat 16 Config.frameH ++ BitVec.ofNat 16 Config.frameW) ∨
  (s.status = 0x21 ∧ s.finfo.toNat < Config.hw.nblk) ∨
  (s.status = 0x31 ∧ isIllegal s.finfo = true)

/-- The invariant of the machine. -/
def Invariant (s : State) : Prop := memoriesOk s ∧ recordOk s

/-- Every byte of `PIN` has been written (70_reset_and_hazards.md R182 (b), R189). -/
def pinWritten (c : Cfg) (s : State) : Prop := ∀ a, a < c.pinSize → (Memory.lookup s.pin a).isSome = true

/-- The guard of every output of a 1D command holds (41_transform_1d.md R111). -/
def guardsHold (w : Fin 8 → Vec8) (x : Vec8) : Prop := ∀ k, guardOk (w k) x = true

/-- A run has ended well: the host has done its last action and no fault is recorded (R185). -/
def endedWell (s : State) : Prop := s.pending = [] ∧ faulted s = false

end Sys2Proof.Machine
end

