-- ==== Sys2Proof/Certificates/Slice0/Obligations.lean ====
section
/-! DEFINITION. The statements for the provers. Each is about the machine (`step`, `exec`, the host's port), not
about a program. `Σ` is Mathlib's finite sum and division of an integer by 16 or 32 is floor division, so that
what a command computes is said here in the spec's own formulas and not by the model's functions. -/

namespace Sys2Proof.Claims

open Sys2Proof.Machine

/-- A fault has been taken (60_exceptions.md R165): `FAULT` is 1, `CAUSE` and `FINFO` are written, the other bits
of `STATUS` and all other state, `pc` too, are those of `s`. -/
def faultTaken (cause : BitVec 4) (info : Word) (s t : State) : Prop :=
  faultBit t.status = 1 ∧ causeOf t.status = cause ∧ t.finfo = info ∧
    t.status.extractLsb' 1 3 = s.status.extractLsb' 1 3 ∧ t.status.extractLsb' 8 24 = s.status.extractLsb' 8 24 ∧
    t = (s.withStatus t.status).withFinfo t.finfo

/-- Nothing but `GRID` has changed, and `pc` is one further. -/
def onlyGrid (s t : State) : Prop := t = (s.withGrid t.grid).withPc (s.pc + 1)

/-- Nothing but `VD` has changed, and `pc` is one further. -/
def onlyVd (s t : State) : Prop := t = (s.withVd t.vd).withPc (s.pc + 1)

/-- Nothing but `POUT` has changed, and `pc` is one further. -/
def onlyPout (s t : State) : Prop := t = (s.withPout t.pout).withPc (s.pc + 1)

/-- `GRID[b][r][c]` as an integer (20_memory.md R53). -/
def elemAt (g : List (Nat × Elem)) (b : Nat) (r col : Fin 8) : Int := (gridRead g (b * 64 + r.val * 8 + col.val)).toInt

/-- Every element outside block `b` is as before. -/
def otherBlocksSame (b : Nat) (s t : State) : Prop := ∀ e, e / 64 ≠ b → gridRead t.grid e = gridRead s.grid e

/-- Every element outside the grid's 345 600 is as before. -/
def outsideSame (s t : State) : Prop := ∀ e, 345600 ≤ e → gridRead t.grid e = gridRead s.grid e

/-- The clamp to `i16`. -/
def clamp16 (v : Int) : Int := max (-32768) (min 32767 v)

/-- The closed form of 42_transform_2d.md R121. -/
def fwdFormula (M : Work) (X : Work) (j k : Fin 8) : Int :=
  clamp16 ((∑ r, M j r * ((∑ n, M k n * X r n) / 16)) / 16)

/-- The closed form of 42_transform_2d.md R124. -/
def invFormula (M : Work) (C : Work) (m n : Fin 8) : Int :=
  clamp16 ((∑ k, M k n * ((∑ j, M j m * C j k) / 16)) / 16)

/-- The commands one after another, up to the first that answers no next state. -/
def runAll (is : List Instr) (s : State) : Result :=
  match is with
  | [] => .next s
  | i :: rest =>
    match exec i s with
    | .next t => runAll rest t
    | .fault r => .fault r
    | .refused r => .refused r

/-- The sum of magnitudes in the guard of 41_transform_1d.md R111. -/
def guardTotal (w x : Vec8) : Nat := ∑ i, (w i).natAbs * (x i).natAbs

/-- The guard of 41_transform_1d.md R111. -/
def guardWithin (w x : Vec8) : Prop := guardTotal w x ≤ 2 ^ 31 - 1

/-- A word with these fields is of one of the kinds (a) to (e) of 30_encoding.md R75. -/
def illegalFields (op z g blk : Nat) : Prop :=
  op ∉ [0x01, 0x02, 0x03, 0x04, 0x05, 0x06, 0x07, 0x10, 0x11] ∨
  z ≠ 0 ∨
  (op ∈ [0x01, 0x06, 0x07, 0x10, 0x11] ∧ (g = 1 ∨ blk ≠ 0)) ∨
  (op ∈ [0x02, 0x03, 0x04, 0x05] ∧ g = 1 ∧ blk ≠ 0) ∨
  (op ∈ [0x02, 0x03, 0x04, 0x05] ∧ g = 0 ∧ 5400 ≤ blk)

/-- The same of a word: opcode 31:24, zero field 23:17, `G` 16, `blk` 15:0 (30_encoding.md R71). -/
def illegalShape (w : Word) : Prop :=
  illegalFields (w.toNat / 2 ^ 24) (w.toNat / 2 ^ 17 % 2 ^ 7) (w.toNat / 2 ^ 16 % 2) (w.toNat % 2 ^ 16)

/-- A row of 30_encoding.md R73 without an operand: match `m`, mask all ones. -/
def wholeRow (i : Instr) (m w : Word) : Prop := decode w = .command i ↔ w &&& 0xFFFFFFFF#32 = m

/-- A row of R73 with the operand `b`: match `m`, mask `0xFFFF0000`, condition `b < NBLK`. -/
def blockRow (i : BitVec 16 → Instr) (m w : Word) : Prop :=
  ∀ b, decode w = .command (i b) ↔ w &&& 0xFFFF0000#32 = m ∧ b = w.setWidth 16 ∧ b.toNat < 5400

/-- The registers and memories of 10_state.md R37 have their values after reset; a byte without a value is one
nothing has written. -/
def hasResetValues (t : State) : Prop :=
  (∀ e, gridRead t.grid e = 0) ∧ (∀ i : Fin 8, t.vs[i.val] = 0 ∧ t.vd[i.val] = 0) ∧ t.status = 0 ∧ t.finfo = 0 ∧
    t.inW = 0 ∧ t.inH = 0 ∧ (∀ a, Memory.lookup t.pin a = none ∧ Memory.lookup t.pout a = none) ∧ t.pc = 0

/-- The commands that take the one block `blk`. -/
def blockCommands (blk : BitVec 16) : List Instr := [.fwd2d blk, .qnt blk, .dqt blk, .inv2d blk]

/-- The commands that can raise `ArithOverflow` (60_exceptions.md R160, R162). -/
def mayOverflow : Instr → Bool
  | .fwd1d => true
  | .inv1d => true
  | .dqt _ => true
  | .dqtG => true
  | _ => false

/-- The commands of the 2D transform. -/
def isTransform : Instr → Bool
  | .fwd2d _ => true
  | .fwd2dG => true
  | .inv2d _ => true
  | .inv2dG => true
  | _ => false

end Sys2Proof.Claims

open Sys2Proof Sys2Proof.Machine Sys2Proof.Claims

/-! ### The step, issuing a command, decoding -/

/-- The step does the first of the host's remaining actions; with none left nothing changes. The list in the state
is the model's own (log 5); 70_reset_and_hazards.md R185, 60_exceptions.md R171. -/
def Obligations.StepTakesTheNextHostAction : Prop :=
  (∀ s, s.pending = [] → step s = .next s) ∧
  ∀ s a rest, s.pending = a :: rest → step s = hostAct a (s.withPending rest)

/-- 10_state.md R30: a write to `CMD` while `FAULT = 0` decodes the word and executes that command, or takes the
fault of an illegal word; while `FAULT = 1` it is discarded; `CMD` reads 0. -/
def Obligations.CmdWriteRunsTheDecodedCommand : Prop :=
  ∀ s w rest, s.pending = .writeReg 0x00 w :: rest →
    (faulted s = false → ∀ i, decode w = .command i → step s = exec i (s.withPending rest)) ∧
    (faulted s = false → ∀ r, decode w = .illegal r →
      ∃ t, step s = .next t ∧ faultTaken 3 w (s.withPending rest) t) ∧
    (faulted s = true → step s = .next (s.withPending rest)) ∧
    regValue 0x00 s = 0

/-- The word the host lays out with `withFetchWord` is what the next step runs (log 6). -/
def Obligations.PlacedWordIsWhatTheStepRuns : Prop :=
  ∀ s nbits w i, faulted s = false → decodeTableWord nbits w = some i →
    step (s.withFetchWord nbits w) = exec i s

/-- Some of the decoder's vectors (95 section 3.1), one for each family at least. -/
def Obligations.DecoderVectors : Prop :=
  decode 0x01000000 = .command .part ∧ decode 0x0200005B = .command (.fwd2d 91) ∧
  decode 0x02010000 = .command .fwd2dG ∧ decode 0x03000000 = .command (.qnt 0) ∧
  decode 0x04000011 = .command (.dqt 17) ∧ decode 0x05010000 = .command .inv2dG ∧
  decode 0x06000000 = .command .recon ∧ decode 0x07000000 = .command .run ∧
  decode 0x10000000 = .command .fwd1d ∧ decode 0x11000000 = .command .inv1d ∧
  decode 0x02001517 = .command (.fwd2d 5399) ∧ decode 0x02001518 = .illegal .blockRange

/-- Every well-formed command is decoded from its word (30_encoding.md R73, R79). -/
def Obligations.DecodeOfEncode : Prop := ∀ i : Instr, i.wf = true → decode (encode i) = .command i

/-- A word that decodes is the word of the command it decodes to, which is well formed: each word has one
meaning (30_encoding.md R73, R79). -/
def Obligations.EncodeOfDecode : Prop := ∀ w i, decode w = .command i → encode i = w ∧ i.wf = true

/-- 30_encoding.md R73: match, mask and condition of all thirteen rows. -/
def Obligations.CommandTableMatchAndMask : Prop :=
  ∀ w, wholeRow .part 0x01000000 w ∧ blockRow .fwd2d 0x02000000 w ∧ wholeRow .fwd2dG 0x02010000 w ∧
    blockRow .qnt 0x03000000 w ∧ wholeRow .qntG 0x03010000 w ∧ blockRow .dqt 0x04000000 w ∧
    wholeRow .dqtG 0x04010000 w ∧ blockRow .inv2d 0x05000000 w ∧ wholeRow .inv2dG 0x05010000 w ∧
    wholeRow .recon 0x06000000 w ∧ wholeRow .run 0x07000000 w ∧ wholeRow .fwd1d 0x10000000 w ∧
    wholeRow .inv1d 0x11000000 w

/-- 30_encoding.md R75: a word of the kinds (a) to (e) faults `IllegalCommand` with `FINFO` the word and changes
nothing else; every other word is a command. -/
def Obligations.IllegalWordsFaultAndNoOthers : Prop :=
  ∀ w, (illegalShape w → isIllegal w = true ∧ ∀ s rest, s.pending = .writeReg 0x00 w :: rest → faulted s = false →
      ∃ t, step s = .next t ∧ faultTaken 3 w (s.withPending rest) t) ∧
    (¬ illegalShape w → ∃ i, decode w = .command i)

/-- A block command with an index the decoder would have refused takes the fault of its word: the model's choice
for an ill-formed instruction, which no step runs (log 14). -/
def Obligations.IllFormedBlockCommandFaults : Prop :=
  ∀ blk s i, 5400 ≤ blk.toNat → i ∈ blockCommands blk → ∃ t, exec i s = .next t ∧ faultTaken 3 (encode i) s t

/-! ### FWD1D and INV1D -/

/-- 41_transform_1d.md R112: with every guard holding, `VD[k]` is the sum over row `k` shifted right by 4 and
nothing else changes; with the guard of output `k` the lowest that fails, `ArithOverflow` with `FINFO = k` and
nothing else changes (stated over every configuration). -/
def Obligations.Fwd1dResult : Prop :=
  (∀ s, (∀ k, guardWithin (Config.hw.matrix k) (lanes s.vs)) → ∃ t, exec .fwd1d s = .next t ∧ onlyVd s t ∧
    ∀ k, lanes t.vd k = (∑ n, Config.hw.matrix k n * lanes s.vs n) / 16) ∧
  (∀ (c : Cfg) s (k : Fin 8), ¬ guardWithin (c.matrix k) (lanes s.vs) → (∀ j, j < k → guardWithin (c.matrix j) (lanes s.vs)) →
    ∃ t, fwd1dOn c s = .next t ∧ faultTaken 2 (BitVec.ofNat 32 k.val) s t) ∧
  ∀ s, exec .fwd1d s = fwd1dOn Config.hw s

/-- 41_transform_1d.md R113: the same with the matrix indexed transposed. -/
def Obligations.Inv1dResult : Prop :=
  (∀ s, (∀ n, guardWithin (fun k => Config.hw.matrix k n) (lanes s.vs)) → ∃ t, exec .inv1d s = .next t ∧ onlyVd s t ∧
    ∀ n, lanes t.vd n = (∑ k, Config.hw.matrix k n * lanes s.vs k) / 16) ∧
  (∀ (c : Cfg) s (n : Fin 8), ¬ guardWithin (fun k => c.matrix k n) (lanes s.vs) →
    (∀ j, j < n → guardWithin (fun k => c.matrix k j) (lanes s.vs)) →
    ∃ t, inv1dOn c s = .next t ∧ faultTaken 2 (BitVec.ofNat 32 n.val) s t) ∧
  ∀ s, exec .inv1d s = inv1dOn Config.hw s

/-- The corner cases of R112 and R113: 16 in one element of `VS` and 0 elsewhere reads out a column of the matrix
with `FWD1D` and a row with `INV1D`. -/
def Obligations.VectorEngineReadsTheMatrixOut : Prop :=
  ∀ s (i : Fin 8), (∀ j, lanes s.vs j = if j = i then 16 else 0) →
    (∃ t, exec .fwd1d s = .next t ∧ ∀ k, lanes t.vd k = Config.hw.matrix k i) ∧
    ∃ t, exec .inv1d s = .next t ∧ ∀ n, lanes t.vd n = Config.hw.matrix i n

/-- 41_transform_1d.md R111: under the guard every partial sum, in every order, lies in `-(2^31-1)..2^31-1`; and
the guards of a 1D command hold whenever the magnitudes of `VS` sum to at most `2^27 - 1`
(70_reset_and_hazards.md R190). -/
def Obligations.GuardBoundsEveryPartialSum : Prop :=
  (∀ w x : Vec8, guardOk w x = true → ∀ S : Finset (Fin 8), (∑ i ∈ S, w i * x i).natAbs ≤ 2 ^ 31 - 1) ∧
  ∀ (c : Cfg) (x : Vec8), ∑ i, (x i).natAbs ≤ 2 ^ 27 - 1 →
    guardsHold c.matrix x ∧ guardsHold (column c.matrix) x

/-! ### FWD2D and INV2D -/

/-- 42_transform_2d.md R121, R122: `FWD2D b` puts the closed form of the block in place of the block, and changes
nothing else. -/
def Obligations.Fwd2dResult : Prop :=
  ∀ s blk, blk.toNat < 5400 → ∃ t, exec (.fwd2d blk) s = .next t ∧ onlyGrid s t ∧ otherBlocksSame blk.toNat s t ∧
    ∀ j k, elemAt t.grid blk.toNat j k = fwdFormula Config.hw.matrix (elemAt s.grid blk.toNat) j k

/-- 42_transform_2d.md R124, R125: `INV2D b`, columns first. -/
def Obligations.Inv2dResult : Prop :=
  ∀ s blk, blk.toNat < 5400 → ∃ t, exec (.inv2d blk) s = .next t ∧ onlyGrid s t ∧ otherBlocksSame blk.toNat s t ∧
    ∀ m n, elemAt t.grid blk.toNat m n = invFormula Config.hw.matrix (elemAt s.grid blk.toNat) m n

/-- 42_transform_2d.md R128, R129: the grid forms of the transforms on every block. -/
def Obligations.TransformGridFormsResult : Prop :=
  ∀ s, (∃ t, exec .fwd2dG s = .next t ∧ onlyGrid s t ∧ outsideSame s t ∧
      ∀ b j k, b < 5400 → elemAt t.grid b j k = fwdFormula Config.hw.matrix (elemAt s.grid b) j k) ∧
    ∃ t, exec .inv2dG s = .next t ∧ onlyGrid s t ∧ outsideSame s t ∧
      ∀ b m n, b < 5400 → elemAt t.grid b m n = invFormula Config.hw.matrix (elemAt s.grid b) m n

/-- 42_transform_2d.md R126: inside the two transforms, for every legal matrix and every block, the guard sums of
pass 1 are at most `2^22` and its outputs lie in `-2^18..2^18`, those of pass 2 at most `2^25` and in `-2^21..2^21`;
so no well-formed transform command records a fault. -/
def Obligations.TransformsNeverOverflow : Prop :=
  (∀ (c : Cfg) (X : Block) (r k : Fin 8),
    guardTotal (c.matrix k) (blockInts X r) ≤ 2 ^ 22 ∧ (fwdPass1 c.matrix X r k).natAbs ≤ 2 ^ 18 ∧
    guardTotal (c.matrix k) (transpose (fwdPass1 c.matrix X) r) ≤ 2 ^ 25 ∧
    (fwdPass2 c.matrix X r k).natAbs ≤ 2 ^ 21 ∧
    guardTotal (column c.matrix k) (column (blockInts X) r) ≤ 2 ^ 22 ∧ (invPass1 c.matrix X k r).natAbs ≤ 2 ^ 18 ∧
    guardTotal (column c.matrix k) (column (transpose (invPass1 c.matrix X)) r) ≤ 2 ^ 25 ∧
    (invPass2 c.matrix X k r).natAbs ≤ 2 ^ 21) ∧
  ∀ i s t, i.wf = true → isTransform i = true → exec i s = .next t → t.status = s.status ∧ t.finfo = s.finfo

/-! ### QNT and DQT -/

/-- 43_quantization.md R140. -/
def Obligations.QntResult : Prop :=
  ∀ s blk, blk.toNat < 5400 → ∃ t, exec (.qnt blk) s = .next t ∧ onlyGrid s t ∧ otherBlocksSame blk.toNat s t ∧
    ∀ r col, elemAt t.grid blk.toNat r col = elemAt s.grid blk.toNat r col / 32 ∧
      -1024 ≤ elemAt t.grid blk.toNat r col ∧ elemAt t.grid blk.toNat r col ≤ 1023

/-- 43_quantization.md R141. -/
def Obligations.QntGridResult : Prop :=
  ∀ s, ∃ t, exec .qntG s = .next t ∧ onlyGrid s t ∧ outsideSame s t ∧
    ∀ b r col, b < 5400 → elemAt t.grid b r col = elemAt s.grid b r col / 32

/-- 43_quantization.md R142: with every element in -1024..1023 each is multiplied by 32; with one outside,
`ArithOverflow` with `FINFO = b` and the block is unchanged. -/
def Obligations.DqtResult : Prop :=
  ∀ s blk, blk.toNat < 5400 →
    ((∀ r col, -1024 ≤ elemAt s.grid blk.toNat r col ∧ elemAt s.grid blk.toNat r col ≤ 1023) →
      ∃ t, exec (.dqt blk) s = .next t ∧ onlyGrid s t ∧ otherBlocksSame blk.toNat s t ∧
        ∀ r col, elemAt t.grid blk.toNat r col = elemAt s.grid blk.toNat r col * 32) ∧
    ((∃ r col, elemAt s.grid blk.toNat r col < -1024 ∨ 1023 < elemAt s.grid blk.toNat r col) →
      ∃ t, exec (.dqt blk) s = .next t ∧ faultTaken 2 (blk.setWidth 32) s t)

/-- 43_quantization.md R143: with every element of every block in range, every block is dequantised; else
`ArithOverflow` with the lowest such block `b`, the blocks below `b` dequantised, all others unchanged. -/
def Obligations.DqtGridResult : Prop :=
  ∀ s, ((∀ b r col, b < 5400 → -1024 ≤ elemAt s.grid b r col ∧ elemAt s.grid b r col ≤ 1023) →
      ∃ t, exec .dqtG s = .next t ∧ onlyGrid s t ∧ outsideSame s t ∧
        ∀ b r col, b < 5400 → elemAt t.grid b r col = elemAt s.grid b r col * 32) ∧
    ∀ b, b < 5400 → (∃ r col, elemAt s.grid b r col < -1024 ∨ 1023 < elemAt s.grid b r col) →
      (∀ j r col, j < b → -1024 ≤ elemAt s.grid j r col ∧ elemAt s.grid j r col ≤ 1023) →
      ∃ t, exec .dqtG s = .next t ∧ faultTaken 2 (BitVec.ofNat 32 b) (s.withGrid t.grid) t ∧
        (∀ j r col, j < b → elemAt t.grid j r col = elemAt s.grid j r col * 32) ∧
        ∀ e, b ≤ e / 64 → gridRead t.grid e = gridRead s.grid e

/-- 43_quantization.md R144: `QNT b ; DQT b` never faults and clears the low five bits of every element of the
block; a second time it changes nothing more. -/
def Obligations.QuantiseThenDequantiseClearsLowBits : Prop :=
  ∀ s blk, blk.toNat < 5400 → ∃ t, runAll (expand (.qdq blk)) s = .next t ∧ t.pc = s.pc + 2 ∧ t.status = s.status ∧
    (∀ e, e / 64 = blk.toNat → (gridRead t.grid e).toInt = (gridRead s.grid e).toInt - (gridRead s.grid e).toInt % 32 ∧
      gridRead t.grid e = gridRead s.grid e &&& 0xFFE0#16) ∧
    ∃ u, runAll (expand (.qdq blk)) t = .next u ∧ ∀ e, gridRead u.grid e = gridRead t.grid e

/-- 43_quantization.md R145: an all-zero block stays all zero under each of the four block commands, which complete:
none faults on it. -/
def Obligations.ZeroBlocksStayZero : Prop :=
  ∀ s blk i, blk.toNat < 5400 → i ∈ blockCommands blk → (∀ r col, elemAt s.grid blk.toNat r col = 0) →
    ∃ t, exec i s = .next t ∧ t.pc = s.pc + 1 ∧ t.status = s.status ∧
      ∀ r col, elemAt t.grid blk.toNat r col = 0

/-- 44_pipeline.md R152, 20_memory.md R59: where nothing faults, a grid form leaves in `GRID` what its single-block
commands leave, done on every block in any order; `pc` is one further, not 5400. -/
def Obligations.GridFormIsItsBlocksInAnyOrder : Prop :=
  ∀ (single : BitVec 16 → Instr) (grid : Instr),
    (single, grid) ∈ [(Instr.fwd2d, Instr.fwd2dG), (Instr.qnt, Instr.qntG), (Instr.dqt, Instr.dqtG),
      (Instr.inv2d, Instr.inv2dG)] →
    ∀ s (order : List Nat), order.Perm (List.range 5400) →
      (grid = .dqtG → ∀ b r col, b < 5400 → -1024 ≤ elemAt s.grid b r col ∧ elemAt s.grid b r col ≤ 1023) →
      ∃ t u, runAll (order.map fun b => single (BitVec.ofNat 16 b)) s = .next t ∧ exec grid s = .next u ∧
        (∀ e, gridRead u.grid e = gridRead t.grid e) ∧ t.pc = s.pc + 5400 ∧ u.pc = s.pc + 1 ∧
        u = (t.withGrid u.grid).withPc u.pc

/-! ### PART, RECON, RUN -/

/-- 40_partition_reconstruct.md R93: a declared shape that is not the frame's faults before anything is read or
written; else, with `PIN` fully written, the element of every pixel is `Luma` of its three bytes, every element
of the grid is written, and nothing else changes; with a byte of `PIN` unwritten the command is refused. -/
def Obligations.PartResult : Prop :=
  ∀ s, (¬ (s.inW.toNat = 720 ∧ s.inH.toNat = 480) → ∃ t, exec .part s = .next t ∧ faultTaken 1 (s.inH ++ s.inW) s t) ∧
    (s.inW.toNat = 720 → s.inH.toNat = 480 → (∃ a, a < 1036800 ∧ Memory.lookup s.pin a = none) →
      exec .part s = .refused .unwrittenPin) ∧
    (s.inW.toNat = 720 → s.inH.toNat = 480 → (∀ a, a < 1036800 → Memory.lookup s.pin a ≠ none) →
      ∃ t, exec .part s = .next t ∧ onlyGrid s t ∧ outsideSame s t ∧
        (∀ px py r g b, px < 720 → py < 480 → Memory.lookup s.pin (3 * (py * 720 + px)) = some r →
          Memory.lookup s.pin (3 * (py * 720 + px) + 1) = some g →
          Memory.lookup s.pin (3 * (py * 720 + px) + 2) = some b →
          gridRead t.grid ((px / 8 + py / 8 * 90) * 64 + py % 8 * 8 + px % 8) = Config.hw.luma r g b) ∧
        ∀ e, e < 345600 → ∃ px py, px < 720 ∧ py < 480 ∧ (px / 8 + py / 8 * 90) * 64 + py % 8 * 8 + px % 8 = e)

/-- Nothing of the grid's old contents survives a `PART` (R93, corner cases): two states with the same `PIN` get
the same grid. -/
def Obligations.PartForgetsTheOldGrid : Prop :=
  ∀ s s' t t', s.pin = s'.pin → faulted t = false → faulted t' = false → exec .part s = .next t →
    exec .part s' = .next t' → ∀ e, e < 345600 → gridRead t.grid e = gridRead t'.grid e

/-- 40_partition_reconstruct.md R92 (b), (c): after a `PART` every element lies in 0..255 and is the exact
truncation of its pixel's weighted sum, or one less where the sum is an exact integer. The last clause rests on R92 (c),
which the spec marks as its own bound on float error, not a sourced fact, and on the model's choice to take it
(log 3, unsafe). -/
def Obligations.PartElementsAreLumaValues : Prop :=
  ∀ s t, exec .part s = .next t → s.inW.toNat = 720 → s.inH.toNat = 480 →
    ∀ px py r g b, px < 720 → py < 480 → Memory.lookup s.pin (3 * (py * 720 + px)) = some r →
      Memory.lookup s.pin (3 * (py * 720 + px) + 1) = some g →
      Memory.lookup s.pin (3 * (py * 720 + px) + 2) = some b →
      ∃ l : Nat, elemAt t.grid (px / 8 + py / 8 * 90) (lane py) (lane px) = l ∧ l ≤ 255 ∧
        (l = (299 * r.toNat + 587 * g.toNat + 114 * b.toNat) / 1000 ∨
          (299 * r.toNat + 587 * g.toNat + 114 * b.toNat = 1000 * (l + 1)))

/-- 40_partition_reconstruct.md R95: the three bytes of every pixel are `ReconConv` of its element and of the Scale
Table entry at its intra-block offset; nothing else changes, and the declared shape is not looked at. -/
def Obligations.ReconResult : Prop :=
  ∀ s, ∃ t, exec .recon s = .next t ∧ onlyPout s t ∧
    (∀ a, 1036800 ≤ a → Memory.lookup t.pout a = Memory.lookup s.pout a) ∧
    ∀ px py ch, px < 720 → py < 480 → ch < 3 →
      Memory.lookup t.pout (3 * (py * 720 + px) + ch) =
        some (Config.hw.recon (gridRead s.grid ((px / 8 + py / 8 * 90) * 64 + py % 8 * 8 + px % 8))
          (Config.hw.scale (lane px) (lane py)))

/-- 40_partition_reconstruct.md R96 (c), R95: with no element above 0, as straight after reset, `RECON` gives an
all-zero `POUT`. -/
def Obligations.ReconOfNonPositiveGridIsBlack : Prop :=
  ∀ s, (∀ e, e < 345600 → (gridRead s.grid e).toInt ≤ 0) →
    ∃ t, exec .recon s = .next t ∧ ∀ a, a < 1036800 → Memory.lookup t.pout a = some 0

/-- 40_partition_reconstruct.md R96 (d), R95: in every configuration, an element at or above 255 times its Scale Table
entry, but for one float rounding of that product, gives 255 in the three bytes of its pixel; `exec` is this on the
hardware's configuration. That one rounding is at most 1/1024 of the product rests on the model's choice of a float
format no shorter than binary16 (log 4). -/
def Obligations.ReconOfHighElementsIsWhite : Prop :=
  (∀ (c : Cfg) s px py ch, px < c.frameW → py < c.frameH → ch < 3 →
    Config.reconHigh c.floatBits (c.scale (lane px) (lane py)) ≤
      ((gridRead s.grid ((px / 8 + py / 8 * c.bpr) * 64 + py % 8 * 8 + px % 8)).toInt : Rat) →
    ∃ t, reconOn c s = .next t ∧ Memory.lookup t.pout (3 * (py * c.frameW + px) + ch) = some 255) ∧
  (∀ (c : Cfg) ox oy, 255 * c.scale ox oy < Config.reconHigh c.floatBits (c.scale ox oy) ∧
    Config.reconHigh c.floatBits (c.scale ox oy) ≤ 255 * c.scale ox oy * 1025 / 1024) ∧
  ∀ s, exec .recon s = reconOn Config.hw s

/-- 40_partition_reconstruct.md R97: with a Scale Table of all ones, `PART ; RECON` puts the luma of every pixel into
its three bytes, in every configuration. -/
def Obligations.PartThenReconIsLuma : Prop :=
  ∀ (c : Cfg) s, (∀ ox oy, c.scale ox oy = 1) → s.inW.toNat = c.frameW → s.inH.toNat = c.frameH → pinWritten c s →
    ∃ t u, partOn c s = .next t ∧ reconOn c t = .next u ∧
      ∀ px py ch r g b, px < c.frameW → py < c.frameH → ch < 3 →
        Memory.lookup s.pin (3 * (py * c.frameW + px)) = some r →
        Memory.lookup s.pin (3 * (py * c.frameW + px) + 1) = some g →
        Memory.lookup s.pin (3 * (py * c.frameW + px) + 2) = some b →
        ∃ o, Memory.lookup u.pout (3 * (py * c.frameW + px) + ch) = some o ∧ o.toNat = (c.luma r g b).toNat

/-- 44_pipeline.md R150: a declared shape that is not the frame's faults before anything is touched; else, with `PIN`
fully written, `RUN` is the six commands `PART ; FWD2D.G ; QNT.G ; DQT.G ; INV2D.G ; RECON`, except that `pc`
advances by one; only `GRID`, `POUT` and `pc` change. -/
def Obligations.RunIsTheSixCommands : Prop :=
  ∀ s, (¬ (s.inW.toNat = 720 ∧ s.inH.toNat = 480) → ∃ t, exec .run s = .next t ∧ faultTaken 1 (s.inH ++ s.inW) s t) ∧
    (s.inW.toNat = 720 → s.inH.toNat = 480 → (∀ a, a < 1036800 → Memory.lookup s.pin a ≠ none) →
      ∃ t, runAll [.part, .fwd2dG, .qntG, .dqtG, .inv2dG, .recon] s = .next t ∧ t.pc = s.pc + 6 ∧
        exec .run s = .next (t.withPc (s.pc + 1)) ∧
        t = ((s.withGrid t.grid).withPout t.pout).withPc (s.pc + 6))

/-- A second `RUN` on the same input gives the same `POUT` and `GRID` (R150, corner cases), and a second `RECON`
the same `POUT` (R95, corner cases). -/
def Obligations.RunAndReconAreRepeatable : Prop :=
  (∀ s t u, faulted s = false → faulted t = false → exec .run s = .next t → exec .run t = .next u →
    (∀ e, e < 345600 → gridRead u.grid e = gridRead t.grid e) ∧
    ∀ a, a < 1036800 → Memory.lookup u.pout a = Memory.lookup t.pout a) ∧
  ∀ s t u, exec .recon s = .next t → exec .recon t = .next u →
    ∀ a, Memory.lookup u.pout a = Memory.lookup t.pout a

/-- 60_exceptions.md R163: `PART` and `RUN` compare the declared shape first; any mismatch is `InputShape` with
every memory untouched; `RECON` does not check. -/
def Obligations.DeclaredShapeIsCheckedFirst : Prop :=
  ∀ s, (s.inW.toNat ≠ 720 ∨ s.inH.toNat ≠ 480) →
    (∃ t, exec .part s = .next t ∧ faultTaken 1 (s.inH ++ s.inW) s t) ∧
    (∃ t, exec .run s = .next t ∧ faultTaken 1 (s.inH ++ s.inW) s t) ∧
    ∃ t, exec .recon s = .next t ∧ onlyPout s t

/-- 70_reset_and_hazards.md R189: `PART` and `RUN` over a byte of `PIN` nothing has written are refused (log 9). A host
read of an unwritten byte of `POUT` (R189) or `PIN` (93_implementation_defined.md U12) returns any value: that it is the
free value of the reset's number and the offset is the model's choice (log 8). -/
def Obligations.UnwrittenBytes : Prop :=
  (∀ s a, s.inW.toNat = 720 → s.inH.toNat = 480 → a < 1036800 → Memory.lookup s.pin a = none →
    exec .part s = .refused .unwrittenPin ∧ exec .run s = .refused .unwrittenPin) ∧
  (∀ s a, a < 1036800 → Memory.lookup s.pout a = none →
    hostAct (.readPout a) s = .next (s.withLastRead (some (.byte (Config.freePout s.epoch a))))) ∧
  ∀ s a, a < 1036800 → Memory.lookup s.pin a = none →
    hostAct (.readPin a) s = .next (s.withLastRead (some (.byte (Config.freePin s.epoch a))))

/-- 44_pipeline.md R154, 30_encoding.md R78: `CODEC b` and `QDQ b` never fault for a block of the grid, nor `CODEC.G`
and `QDQ.G` at all (43_quantization.md R143: `DQT.G` straight after `QNT.G` cannot fault); `pc` advances once for each
real command. -/
def Obligations.PseudoInstructionsNeverFault : Prop :=
  (∀ s blk, blk.toNat < 5400 →
    (∃ t, runAll (expand (.codec blk)) s = .next t ∧ t.pc = s.pc + 4 ∧ t.status = s.status) ∧
    (∃ t, runAll (expand (.qdq blk)) s = .next t ∧ t.pc = s.pc + 2 ∧ t.status = s.status)) ∧
  ∀ s, (∃ t, runAll (expand .codecG) s = .next t ∧ t.pc = s.pc + 4 ∧ t.status = s.status) ∧
    ∃ t, runAll (expand .qdqG) s = .next t ∧ t.pc = s.pc + 2 ∧ t.status = s.status

/-! ### Faults -/

/-- 60_exceptions.md R165: what raising a fault with `FAULT` 0 writes, and that nothing else changes; from a `STATUS`
of 0, the only one without a fault (10_state.md R27), it leaves the code of R160 in bits 7:4 and bit 0 set. -/
def Obligations.RaiseRecordsTheFault : Prop :=
  ∀ f info s, faulted s = false → ∃ t, raise f info s = .next t ∧ faultTaken (causeCode f) info s t ∧
    (s.status = 0 →
      t.status = match f with | .inputShape => 0x11 | .arithOverflow => 0x21 | .illegalCommand => 0x31)

/-- 60_exceptions.md R160, R162: which command can raise which fault. `InputShape` comes from `PART` and `RUN` only,
`ArithOverflow` from `FWD1D`, `INV1D` and `DQT` only, and a well-formed command raises no `IllegalCommand`. -/
def Obligations.CausesByCommand : Prop :=
  ∀ i s t, i.wf = true → s.status = 0 → exec i s = .next t →
    t.status = 0 ∨ (t.status = 0x11 ∧ (i = .part ∨ i = .run)) ∨ (t.status = 0x21 ∧ mayOverflow i = true)

/-- 60_exceptions.md R166: once `FAULT` is 1 a write to `CMD` is discarded, no action of the host but reset changes
`STATUS` or `FINFO`, and reset clears them. -/
def Obligations.FaultsAreStickyUntilReset : Prop :=
  ∀ s, faulted s = true →
    (∀ w, hostAct (.writeReg 0x00 w) s = .next s) ∧
    (∀ a t, a ≠ .reset → hostAct a s = .next t → t.status = s.status ∧ t.finfo = s.finfo ∧ t.pc = s.pc) ∧
    ∃ t, hostAct .reset s = .next t ∧ faulted t = false ∧ t.finfo = 0

/-! ### The whole machine -/

/-- Every step keeps the invariant: the memories stay canonical and inside their spaces (20_memory.md R50), and
`STATUS` and `FINFO` record no fault or one of R160 with its own information word (10_state.md R27, R28). -/
def Obligations.StepKeepsTheInvariant : Prop := ∀ s t, Invariant s → step s = .next t → Invariant t

/-- The invariant holds after reset. -/
def Obligations.InvariantHoldsAtReset : Prop := Invariant State.reset

/-- 70_reset_and_hazards.md R181: reset, and the state after reset, have the values of 10_state.md R37. -/
def Obligations.ResetPutsEveryValue : Prop :=
  hasResetValues State.reset ∧
  ∀ s rest, s.pending = .reset :: rest → ∃ t, step s = .next t ∧ hasResetValues t ∧ t.pending = rest

/-- No command writes `VS`, `IN_W`, `IN_H` or `PIN` (10_state.md R21, R26, R32), and none touches what belongs to
the host. -/
def Obligations.NoCommandWritesTheInputs : Prop :=
  ∀ i s t, exec i s = .next t → t.vs = s.vs ∧ t.inW = s.inW ∧ t.inH = s.inH ∧ t.pin = s.pin ∧
    t.pending = s.pending ∧ t.lastRead = s.lastRead ∧ t.epoch = s.epoch

/-- `VD` is written by `FWD1D` and `INV1D` only (10_state.md R22), `POUT` by `RECON` and `RUN` only (R33), and `GRID`
by neither of the 1D commands nor `RECON` (R34). -/
def Obligations.EachMemoryHasItsWriters : Prop :=
  ∀ i s t, exec i s = .next t →
    (i ≠ .fwd1d → i ≠ .inv1d → t.vd = s.vd) ∧ (i ≠ .recon → i ≠ .run → t.pout = s.pout) ∧
    (i = .fwd1d ∨ i = .inv1d ∨ i = .recon → t.grid = s.grid)

/-- 10_state.md R23: a command that completes steps `pc` by one and leaves `STATUS` and `FINFO`; one that faults
leaves `pc` and sets `FAULT`; no command changes `pc` in any other way. -/
def Obligations.PcStepsByOneUnlessFaulted : Prop :=
  ∀ i s t, exec i s = .next t →
    (t.pc = s.pc + 1 ∧ t.status = s.status ∧ t.finfo = s.finfo) ∨ (t.pc = s.pc ∧ faultBit t.status = 1)

/-! ### The host's port -/

/-- 10_state.md R26: what the host reads and writes under every register number but a write of `CMD`. -/
def Obligations.RegisterPort : Prop :=
  ∀ (s : State) (v : Word) (n : Nat) (i : Fin 8),
    hostAct (.readReg n) s = .next (s.withLastRead (some (.reg (regValue n s)))) ∧
    regValue 0x00 s = 0 ∧ regValue 0x01 s = s.status ∧ regValue 0x02 s = s.finfo ∧
    (regValue 0x03 s).toNat = s.inW.toNat ∧ (regValue 0x04 s).toNat = s.inH.toNat ∧
    regValue (0x10 + i.val) s = s.vs[i.val] ∧ regValue (0x18 + i.val) s = s.vd[i.val] ∧
    ((5 ≤ n ∧ n < 0x10) ∨ 0x20 ≤ n → regValue n s = 0) ∧
    (n = 0x01 ∨ n = 0x02 ∨ (5 ≤ n ∧ n < 0x10) ∨ 0x18 ≤ n → hostAct (.writeReg n v) s = .next s) ∧
    (∃ t, hostAct (.writeReg 0x03 v) s = .next t ∧ t = s.withInW t.inW ∧ t.inW.toNat = v.toNat % 2 ^ 16) ∧
    (∃ t, hostAct (.writeReg 0x04 v) s = .next t ∧ t = s.withInH t.inH ∧ t.inH.toNat = v.toNat % 2 ^ 16) ∧
    ∃ t, hostAct (.writeReg (0x10 + i.val) v) s = .next t ∧ t = s.withVs t.vs ∧
      ∀ j : Fin 8, t.vs[j.val] = if j = i then v else s.vs[j.val]

/-- 20_memory.md R50, R55, R58, 70_reset_and_hazards.md R193: a host write of one element changes that element only; a
host read of a written byte, or of any element of `GRID`, returns what is stored. R56 says that the model refuses an
access outside its space; that the stop is a fault of this name is the model's choice (log 10), and so is the field a
read's answer stands in (log 7). -/
def Obligations.MemoryPort : Prop :=
  ∀ (s : State) (a : Nat) (v : Byte) (e : Elem),
    (a < 1036800 → ∃ t, hostAct (.writePin a v) s = .next t ∧ t = s.withPin t.pin ∧
      ∀ b, Memory.lookup t.pin b = if b = a then some v else Memory.lookup s.pin b) ∧
    (a < 1036800 → ∃ t, hostAct (.writePout a v) s = .next t ∧ t = s.withPout t.pout ∧
      ∀ b, Memory.lookup t.pout b = if b = a then some v else Memory.lookup s.pout b) ∧
    (a < 345600 → ∃ t, hostAct (.writeGrid a e) s = .next t ∧ t = s.withGrid t.grid ∧
      ∀ b, gridRead t.grid b = if b = a then e else gridRead s.grid b) ∧
    (a < 1036800 → Memory.lookup s.pin a = some v →
      hostAct (.readPin a) s = .next (s.withLastRead (some (.byte v)))) ∧
    (a < 1036800 → Memory.lookup s.pout a = some v →
      hostAct (.readPout a) s = .next (s.withLastRead (some (.byte v)))) ∧
    (a < 345600 → hostAct (.readGrid a) s = .next (s.withLastRead (some (.elem (gridRead s.grid a))))) ∧
    (1036800 ≤ a → hostAct (.writePin a v) s = .fault (.offsetOutOfRange .pin a) ∧
      hostAct (.writePout a v) s = .fault (.offsetOutOfRange .pout a) ∧
      hostAct (.readPin a) s = .fault (.offsetOutOfRange .pin a) ∧
      hostAct (.readPout a) s = .fault (.offsetOutOfRange .pout a)) ∧
    (345600 ≤ a → hostAct (.writeGrid a e) s = .fault (.offsetOutOfRange .grid a) ∧
      hostAct (.readGrid a) s = .fault (.offsetOutOfRange .grid a))

/-- 20_memory.md R55: a host read changes nothing the machine holds, and reading again with no write between
returns the same value. The field its answer stands in is the model's choice (log 7). -/
def Obligations.ReadsHaveNoSideEffect : Prop :=
  ∀ a s t u, (∃ n, a = .readReg n ∨ a = .readPin n ∨ a = .readPout n ∨ a = .readGrid n) →
    hostAct a s = .next t → hostAct a t = .next u → t = s.withLastRead t.lastRead ∧ u = t
end

