-- ==== Sys2Proof/Laws/Arith.lean ====
section
/-! SUPPORT. The arithmetic of spec 00_scope.md R8 in ranges, the eight lanes, and the bounds of the 1D and 2D
transforms (41_transform_1d.md R115, 42_transform_2d.md R126). -/

namespace Sys2Proof.Machine

theorem asr_four (v : Int) : asr v 4 = v / 16 := rfl

theorem asr_five (v : Int) : asr v 5 = v / 32 := rfl

theorem shl_five (v : Int) : shl v 5 = v * 32 := rfl

/-- `sat16` answers a value of type `i16`. -/
theorem sat16_range (v : Int) : -32768 ≤ sat16 v ∧ sat16 v ≤ 32767 := by
  simp only [sat16, clamp, Config.elemMin, Config.elemMax]
  split
  · omega
  · split <;> omega

/-- `sat16` keeps a value of type `i16`. -/
theorem sat16_of_range {v : Int} (h : -32768 ≤ v) (h' : v ≤ 32767) : sat16 v = v := by
  simp only [sat16, clamp, Config.elemMin, Config.elemMax]
  rw [if_neg (by omega), if_neg (by omega)]

/-- An element is of type `i16`. -/
theorem elem_range (v : Elem) : -32768 ≤ v.toInt ∧ v.toInt ≤ 32767 := by
  have h1 := BitVec.le_toInt v
  have h2 := BitVec.toInt_lt (x := v)
  omega

/-- A value of type `i16` is stored as it is. -/
theorem toInt_toElem {v : Int} (h : -32768 ≤ v) (h' : v ≤ 32767) : (toElem v).toInt = v := by
  simp only [toElem, BitVec.toInt_ofInt]
  exact Int.bmod_eq_of_le (by omega) (by omega)

/-- The stored value of a clamped value. -/
theorem toInt_toElem_sat16 (v : Int) : (toElem (sat16 v)).toInt = sat16 v :=
  toInt_toElem (sat16_range v).1 (sat16_range v).2

@[simp] theorem toElem_zero : toElem 0 = 0 := rfl

/-- The value of a quantised element (43_quantization.md R140). -/
theorem toInt_quantElem (v : Elem) : (quantElem v).toInt = v.toInt / 32 := by
  have h := elem_range v
  simp only [quantElem, asr_five]
  exact toInt_toElem (by omega) (by omega)

/-- A quantised element is in the range `DQT` accepts (R140). -/
theorem fitsDqt_quantElem (v : Elem) : fitsDqt (quantElem v) = true := by
  have h := elem_range v
  simp only [fitsDqt, toInt_quantElem, Config.dqtMin, Config.dqtMax, Bool.and_eq_true, decide_eq_true_eq]
  omega

/-- The value of a dequantised element that fits (R142). -/
theorem toInt_dequantElem {v : Elem} (h : fitsDqt v = true) : (dequantElem v).toInt = v.toInt * 32 := by
  simp only [fitsDqt, Config.dqtMin, Config.dqtMax, Bool.and_eq_true, decide_eq_true_eq] at h
  simp only [dequantElem, shl_five]
  exact toInt_toElem (by omega) (by omega)

theorem all8_iff (p : Fin 8 → Bool) : all8 p = true ↔ ∀ i, p i = true := by
  simp only [all8, Bool.and_eq_true]
  constructor
  · rintro ⟨⟨⟨⟨⟨⟨⟨h0, h1⟩, h2⟩, h3⟩, h4⟩, h5⟩, h6⟩, h7⟩ i
    fin_cases i <;> assumption
  · intro h
    exact ⟨⟨⟨⟨⟨⟨⟨h 0, h 1⟩, h 2⟩, h 3⟩, h 4⟩, h 5⟩, h 6⟩, h 7⟩

/-- Every element of the block fits. -/
theorem blockFits_iff (X : Block) : blockFits X = true ↔ ∀ r col, fitsDqt (X r col) = true := by
  simp only [blockFits, all8_iff]

/-- No lane fails exactly where all pass. -/
theorem firstFailing8_eq_none (p : Fin 8 → Bool) : firstFailing8 p = none ↔ ∀ k, p k = true := by
  simp only [firstFailing8, List.find?_eq_none, Bool.not_eq_true', Bool.not_eq_false]
  constructor
  · intro h k
    exact h k (by fin_cases k <;> simp)
  · intro h k _
    exact h k

/-- The lane reported is the lowest that fails. -/
theorem firstFailing8_eq_some (p : Fin 8 → Bool) (k : Fin 8) :
    firstFailing8 p = some k ↔ p k = false ∧ ∀ j, j < k → p j = true := by
  constructor
  · intro h
    obtain ⟨h1, as, bs, hl, h2⟩ := List.find?_eq_some_iff_append.1 h
    refine ⟨by simpa using h1, fun j hj => ?_⟩
    have hall : List.Pairwise (· < ·) ([0, 1, 2, 3, 4, 5, 6, 7] : List (Fin 8)) := by decide
    have hj8 : j ∈ ([0, 1, 2, 3, 4, 5, 6, 7] : List (Fin 8)) := by fin_cases j <;> simp
    rw [hl] at hall hj8
    rcases List.mem_append.1 hj8 with hm | hm
    · simpa using h2 j hm
    · exfalso
      have hp := (List.pairwise_append.1 hall).2.1
      rcases List.mem_cons.1 hm with rfl | hm
      · exact lt_irrefl _ hj
      · exact lt_asymm hj ((List.pairwise_cons.1 hp).1 j hm)
  · rintro ⟨hk, hlt⟩
    cases hf : firstFailing8 p with
    | none => rw [(firstFailing8_eq_none p).1 hf k] at hk; cases hk
    | some j =>
      obtain ⟨h1, as, bs, hl, h2⟩ := List.find?_eq_some_iff_append.1 hf
      have hjf : p j = false := by simpa using h1
      have hkj : ¬ j < k := fun h => by rw [hlt j h] at hjf; cases hjf
      by_contra hne
      have hkj' : k < j := lt_of_le_of_ne (not_lt.1 hkj) fun h => hne (by rw [h])
      have hall : List.Pairwise (· < ·) ([0, 1, 2, 3, 4, 5, 6, 7] : List (Fin 8)) := by decide
      have hk8 : k ∈ ([0, 1, 2, 3, 4, 5, 6, 7] : List (Fin 8)) := by fin_cases k <;> simp
      rw [hl] at hall hk8
      rcases List.mem_append.1 hk8 with hm | hm
      · have := h2 k hm
        simp [hk] at this
      · have hp := (List.pairwise_append.1 hall).2.1
        rcases List.mem_cons.1 hm with rfl | hm
        · exact hne rfl
        · exact lt_asymm hkj' ((List.pairwise_cons.1 hp).1 k hm)

/-- The sum of eight products is at most the guard sum (41_transform_1d.md R111). -/
theorem dot_natAbs_le (w x : Vec8) : (dot w x).natAbs ≤ guardSum w x := by
  have h : ∀ i, (w i * x i).natAbs = (w i).natAbs * (x i).natAbs := fun i => Int.natAbs_mul _ _
  simp only [dot, sum8, guardSum, sumNat8, ← h]
  omega

/-- The guard sum under bounds of the coefficients and the input (R115 (b)). -/
theorem guardSum_le {w x : Vec8} {B : Nat} (hw : ∀ i, (w i).natAbs ≤ 16) (hx : ∀ i, (x i).natAbs ≤ B) :
    guardSum w x ≤ 128 * B := by
  have h : ∀ i, (w i).natAbs * (x i).natAbs ≤ 16 * B := fun i => Nat.mul_le_mul (hw i) (hx i)
  have := h 0; have := h 1; have := h 2; have := h 3
  have := h 4; have := h 5; have := h 6; have := h 7
  simp only [guardSum, sumNat8]
  omega

theorem guardOk_iff (w x : Vec8) : guardOk w x = true ↔ guardSum w x ≤ 2147483647 := by
  simp [guardOk]

/-- An output of the 1D functions under the same bounds: `-8 * B .. 8 * B` (R115 (b)). -/
theorem asr_dot_natAbs_le {w x : Vec8} {B : Nat} (hw : ∀ i, (w i).natAbs ≤ 16) (hx : ∀ i, (x i).natAbs ≤ B) :
    (asr (dot w x) 4).natAbs ≤ 8 * B := by
  have h1 := dot_natAbs_le w x
  have h2 := guardSum_le hw hx
  rw [asr_four]
  omega

/-- An output of the 1D functions under the guard fits the 32-bit destination (R114). -/
theorem toInt_ofInt_of_guard {w x : Vec8} (h : guardOk w x = true) :
    (BitVec.ofInt 32 (asr (dot w x) 4)).toInt = asr (dot w x) 4 := by
  have h1 := dot_natAbs_le w x
  have h2 := (guardOk_iff w x).1 h
  rw [BitVec.toInt_ofInt, asr_four]
  exact Int.bmod_eq_of_le (by omega) (by omega)

/-- An element as an integer is at most 2^15 in magnitude. -/
theorem blockInts_natAbs_le (X : Block) (r col : Fin 8) : (blockInts X r col).natAbs ≤ 32768 := by
  have := elem_range (X r col)
  simp only [blockInts]
  omega

/-- Pass 1 of `Fwd2D` stays within 2^18 (R126). -/
theorem fwdPass1_natAbs_le {m : Work} (hm : ∀ k n, (m k n).natAbs ≤ 16) (X : Block) (r k : Fin 8) :
    (fwdPass1 m X r k).natAbs ≤ 262144 := by
  have := asr_dot_natAbs_le (B := 32768) (hm k) (blockInts_natAbs_le X r)
  simpa [fwdPass1, fwd1D] using this

/-- Pass 1 of `Inv2D` stays within 2^18 (R126). -/
theorem invPass1_natAbs_le {m : Work} (hm : ∀ k n, (m k n).natAbs ≤ 16) (X : Block) (i col : Fin 8) :
    (invPass1 m X i col).natAbs ≤ 262144 := by
  have := asr_dot_natAbs_le (w := column m i) (x := column (blockInts X) col) (B := 32768)
    (fun k => hm k i) (fun j => blockInts_natAbs_le X j col)
  simpa [invPass1, inv1D] using this

theorem dot_zero (w : Vec8) : dot w (fun _ => 0) = 0 := by
  simp [dot, sum8]

/-- Skipping blocks with nothing listed changes nothing (43_quantization.md R143). -/
theorem firstOverflow_eq_find (n : Nat) (g : List (Nat × Elem)) :
    firstOverflow n g = (List.range n).find? fun b => !blockFits (blockRead g b) := by
  simp only [firstOverflow]
  congr 1
  funext b
  cases hl : blockListed g b with
  | true => simp
  | false =>
    have hz : ∀ r col, blockRead g b r col = 0 := by
      intro r col
      have hnone : Memory.lookup g (elemIndex b r col) = none := by
        simp only [blockListed, List.any_eq_false, decide_eq_true_eq] at hl
        clear n
        induction g with
        | nil => rfl
        | cons x t ih =>
          obtain ⟨k, v⟩ := x
          have hk := hl (k, v) (List.mem_cons_self ..)
          simp only [Memory.lookup]
          rw [if_neg]
          · exact ih fun x hx => hl x (List.mem_cons_of_mem _ hx)
          · rintro rfl
            apply hk
            simp only [elemIndex]
            omega
      simp [blockRead, gridRead, hnone, gridDefault]
    have : blockFits (blockRead g b) = true := by
      rw [blockFits_iff]
      intro r col
      rw [hz]
      decide
    simp [this]

/-- No block overflows exactly where all fit. -/
theorem firstOverflow_eq_none (n : Nat) (g : List (Nat × Elem)) :
    firstOverflow n g = none ↔ ∀ b, b < n → blockFits (blockRead g b) = true := by
  rw [firstOverflow_eq_find]
  simp [List.find?_eq_none]

/-- The block reported is the lowest that overflows (R143). -/
theorem firstOverflow_eq_some (n : Nat) (g : List (Nat × Elem)) (b : Nat) :
    firstOverflow n g = some b ↔
      b < n ∧ blockFits (blockRead g b) = false ∧ ∀ j, j < b → blockFits (blockRead g j) = true := by
  rw [firstOverflow_eq_find, List.find?_range_eq_some]
  simp only [Bool.not_eq_true', List.mem_range, Bool.not_eq_false']
  tauto

end Sys2Proof.Machine
end

