-- ==== Sys2Proof/Laws/Memory.lean ====
section
/-! SUPPORT. The laws of the memories: a read after a write, the canonical form kept by every operation, and
equal reads of canonical memories make equal memories. -/

namespace Sys2Proof.Machine

variable {w : Nat}

@[simp] theorem Memory.lookup_nil (a : Nat) : Memory.lookup ([] : List (Nat × BitVec w)) a = none := rfl

theorem Memory.lookup_cons (k a : Nat) (x : BitVec w) (t : List (Nat × BitVec w)) :
    Memory.lookup ((k, x) :: t) a = if k = a then some x else Memory.lookup t a := rfl

/-- A read after a store: the stored value at its address, the old value elsewhere. -/
theorem Memory.lookup_put (m : List (Nat × BitVec w)) (a b : Nat) (v : BitVec w) :
    Memory.lookup (Memory.put m a v) b = if a = b then some v else Memory.lookup m b := by
  induction m with
  | nil => rfl
  | cons x t ih =>
    obtain ⟨k, y⟩ := x
    simp only [Memory.put]
    split
    · rename_i h
      rw [Memory.lookup_cons, ih, Memory.lookup_cons]
      by_cases hab : a = b
      · subst hab
        simp [show k ≠ a by omega]
      · simp [hab]
    · split
      · rename_i h
        subst h
        rw [Memory.lookup_cons, Memory.lookup_cons]
        by_cases hab : k = b <;> simp [hab]
      · rw [Memory.lookup_cons]

/-- A read after an erase. -/
theorem Memory.lookup_erase (m : List (Nat × BitVec w)) (a b : Nat) :
    Memory.lookup (Memory.erase m a) b = if a = b then none else Memory.lookup m b := by
  induction m with
  | nil => simp [Memory.erase]
  | cons x t ih =>
    obtain ⟨k, y⟩ := x
    simp only [Memory.erase] at ih
    by_cases hk : k = a
    · simp only [Memory.erase, List.filter_cons, hk]
      simp only [ne_eq, not_true_eq_false, decide_false, Bool.false_eq_true, if_false]
      rw [ih, Memory.lookup_cons]
      by_cases hab : a = b <;> simp [hab]
    · simp only [Memory.erase, List.filter_cons]
      simp only [ne_eq, hk, not_false_eq_true, decide_true, if_true]
      rw [Memory.lookup_cons, ih, Memory.lookup_cons]
      by_cases hab : a = b
      · subst hab
        simp [hk]
      · simp [hab]

theorem Memory.mem_put {m : List (Nat × BitVec w)} {a : Nat} {v : BitVec w} {x : Nat × BitVec w}
    (h : x ∈ Memory.put m a v) : x = (a, v) ∨ x ∈ m := by
  induction m with
  | nil => simpa [Memory.put] using h
  | cons y t ih =>
    obtain ⟨k, z⟩ := y
    simp only [Memory.put] at h
    split at h
    · rcases List.mem_cons.1 h with rfl | h
      · exact .inr (List.mem_cons_self ..)
      · rcases ih h with h | h
        · exact .inl h
        · exact .inr (List.mem_cons_of_mem _ h)
    · split at h
      · rcases List.mem_cons.1 h with rfl | h
        · exact .inl rfl
        · exact .inr (List.mem_cons_of_mem _ h)
      · rcases List.mem_cons.1 h with rfl | h
        · exact .inl rfl
        · exact .inr h

/-- Storing keeps the canonical form. -/
theorem Memory.wf_put {size : Nat} {m : List (Nat × BitVec w)} {a : Nat} (v : BitVec w)
    (hm : Memory.wf size m) (ha : a < size) : Memory.wf size (Memory.put m a v) := by
  refine ⟨?_, ?_⟩
  · induction m with
    | nil => simp [Memory.put]
    | cons y t ih =>
      obtain ⟨k, z⟩ := y
      obtain ⟨hs, hb⟩ := hm
      obtain ⟨hk, ht⟩ := List.pairwise_cons.1 hs
      simp only [Memory.put]
      split
      · rename_i hlt
        refine List.pairwise_cons.2 ⟨?_, ih ⟨ht, fun x hx => hb x (List.mem_cons_of_mem _ hx)⟩⟩
        intro x hx
        rcases Memory.mem_put hx with rfl | hx
        · exact hlt
        · exact hk x hx
      · split
        · rename_i heq
          refine List.pairwise_cons.2 ⟨?_, ht⟩
          intro x hx
          have := hk x hx
          simp only at this ⊢
          omega
        · refine List.pairwise_cons.2 ⟨?_, hs⟩
          intro x hx
          rcases List.mem_cons.1 hx with rfl | hx
          · simp only
            omega
          · have := hk x hx
            simp only at this ⊢
            omega
  · intro x hx
    rcases Memory.mem_put hx with rfl | hx
    · exact ha
    · exact hm.2 x hx

/-- Erasing keeps the canonical form. -/
theorem Memory.wf_erase {size : Nat} {m : List (Nat × BitVec w)} (a : Nat)
    (hm : Memory.wf size m) : Memory.wf size (Memory.erase m a) :=
  ⟨hm.1.filter _, fun x hx => hm.2 x (List.mem_of_mem_filter hx)⟩

/-- Nothing is listed at an address below every listed one. -/
theorem Memory.lookup_below {m : List (Nat × BitVec w)} {a : Nat} (h : ∀ x ∈ m, a < x.1) :
    Memory.lookup m a = none := by
  induction m with
  | nil => rfl
  | cons y t ih =>
    obtain ⟨k, z⟩ := y
    have hk := h (k, z) (List.mem_cons_self ..)
    rw [Memory.lookup_cons, if_neg (by simp only at hk; omega)]
    exact ih fun x hx => h x (List.mem_cons_of_mem _ hx)

/-- What is listed is what a read finds. -/
theorem Memory.lookup_eq_some_of_mem {m : List (Nat × BitVec w)} (hs : m.Pairwise (fun x y => x.1 < y.1))
    {a : Nat} {v : BitVec w} (h : (a, v) ∈ m) : Memory.lookup m a = some v := by
  induction m with
  | nil => simp at h
  | cons y t ih =>
    obtain ⟨k, z⟩ := y
    obtain ⟨hk, ht⟩ := List.pairwise_cons.1 hs
    rw [Memory.lookup_cons]
    rcases List.mem_cons.1 h with h | h
    · cases h
      simp
    · have := hk _ h
      rw [if_neg (by simp only at this; omega)]
      exact ih ht h

/-- What a read finds is listed. -/
theorem Memory.mem_of_lookup {m : List (Nat × BitVec w)} {a : Nat} {v : BitVec w}
    (h : Memory.lookup m a = some v) : (a, v) ∈ m := by
  induction m with
  | nil => simp at h
  | cons y t ih =>
    obtain ⟨k, z⟩ := y
    rw [Memory.lookup_cons] at h
    split at h
    · rename_i hk
      cases h
      subst hk
      exact List.mem_cons_self ..
    · exact List.mem_cons_of_mem _ (ih h)

/-- Canonical memories with equal reads are equal data. -/
theorem Memory.eq_of_lookup_eq {m n : List (Nat × BitVec w)} (hm : m.Pairwise (fun x y => x.1 < y.1))
    (hn : n.Pairwise (fun x y => x.1 < y.1)) (h : ∀ a, Memory.lookup m a = Memory.lookup n a) : m = n := by
  induction m generalizing n with
  | nil =>
    cases n with
    | nil => rfl
    | cons y t =>
      have := h y.1
      rw [show y :: t = (y.1, y.2) :: t from rfl, Memory.lookup_cons] at this
      simp at this
  | cons x s ih =>
    obtain ⟨k, v⟩ := x
    obtain ⟨hk, hs⟩ := List.pairwise_cons.1 hm
    cases n with
    | nil =>
      have := h k
      rw [Memory.lookup_cons] at this
      simp at this
    | cons y t =>
      obtain ⟨j, u⟩ := y
      obtain ⟨hj, ht⟩ := List.pairwise_cons.1 hn
      have hkj : k = j := by
        rcases Nat.lt_trichotomy k j with hlt | heq | hgt
        · have h1 := h k
          rw [Memory.lookup_cons, if_pos rfl, Memory.lookup_below] at h1
          · simp at h1
          · intro x hx
            rcases List.mem_cons.1 hx with rfl | hx
            · exact hlt
            · exact Nat.lt_trans hlt (hj x hx)
        · exact heq
        · have h1 := h j
          rw [Memory.lookup_cons (k := j), if_pos rfl, Memory.lookup_below] at h1
          · simp at h1
          · intro x hx
            rcases List.mem_cons.1 hx with rfl | hx
            · exact hgt
            · exact Nat.lt_trans hgt (hk x hx)
      subst hkj
      have hv : v = u := by
        have := h k
        simpa [Memory.lookup_cons] using this
      subst hv
      congr 1
      refine ih hs ht fun a => ?_
      by_cases ha : k = a
      · subst ha
        rw [Memory.lookup_below hk, Memory.lookup_below hj]
      · have := h a
        simpa [Memory.lookup_cons, ha] using this

/-- A read of `GRID` after a store (00_scope.md R9). -/
theorem gridRead_gridWrite (g : List (Nat × Elem)) (e e' : Nat) (v : Elem) :
    gridRead (gridWrite g e v) e' = if e = e' then v else gridRead g e' := by
  simp only [gridRead, gridWrite]
  split
  · rename_i h
    rw [Memory.lookup_erase]
    by_cases he : e = e' <;> simp [he, h]
  · rw [Memory.lookup_put]
    by_cases he : e = e' <;> simp [he]

/-- Storing an element keeps the canonical form of `GRID`. -/
theorem gridWf_gridWrite {size : Nat} {g : List (Nat × Elem)} {e : Nat} (v : Elem)
    (hg : Memory.gridWf size g) (he : e < size) : Memory.gridWf size (gridWrite g e v) := by
  simp only [gridWrite]
  split
  · exact ⟨Memory.wf_erase e hg.1, fun x hx => hg.2 x (List.mem_of_mem_filter hx)⟩
  · rename_i hv
    refine ⟨Memory.wf_put v hg.1 he, fun x hx => ?_⟩
    rcases Memory.mem_put hx with rfl | hx
    · exact hv
    · exact hg.2 x hx

/-- Canonical grids with equal reads are equal data. -/
theorem grid_eq_of_read_eq {size : Nat} {g h : List (Nat × Elem)} (hg : Memory.gridWf size g)
    (hh : Memory.gridWf size h) (heq : ∀ e, gridRead g e = gridRead h e) : g = h := by
  have key : ∀ {g : List (Nat × Elem)}, Memory.gridWf size g → ∀ e,
      Memory.lookup g e = if gridRead g e = 0 then none else some (gridRead g e) := by
    intro g hg e
    cases hl : Memory.lookup g e with
    | none => simp [gridRead, hl, gridDefault]
    | some v =>
      have := hg.2 _ (Memory.mem_of_lookup hl)
      simp only [gridRead, hl, Option.getD_some]
      rw [if_neg this]
  refine Memory.eq_of_lookup_eq hg.1.1 hh.1.1 fun e => ?_
  rw [key hg, key hh, heq]

/-- An element outside a canonical grid reads 0. -/
theorem gridRead_outside {size : Nat} {g : List (Nat × Elem)} (hg : Memory.wf size g) {e : Nat}
    (he : size ≤ e) : gridRead g e = 0 := by
  cases hl : Memory.lookup g e with
  | none => simp [gridRead, hl, gridDefault]
  | some v =>
    have := hg.2 _ (Memory.mem_of_lookup hl)
    simp only at this
    omega

@[simp] theorem gridRead_nil (e : Nat) : gridRead [] e = 0 := rfl

end Sys2Proof.Machine
end

