-- ==== Sys2Proof/Laws/Loops.lean ====
section
/-! SUPPORT. The counted loops, and what writing one block or every block does to the grid: one lemma for each
shared operation. -/

namespace Sys2Proof.Machine

@[simp] theorem forRange_zero {α : Type} (f : Nat → α → α) (a : α) : forRange 0 f a = a := rfl

@[simp] theorem forRange_succ {α : Type} (n : Nat) (f : Nat → α → α) (a : α) :
    forRange (n + 1) f a = f n (forRange n f a) := rfl

/-- A property that holds before the loop and is kept by each pass holds after it. -/
theorem forRange_induct {α : Type} {f : Nat → α → α} {a : α} (P : Nat → α → Prop) (h0 : P 0 a) (n : Nat)
    (hs : ∀ i x, i < n → P i x → P (i + 1) (f i x)) : P n (forRange n f a) := by
  induction n with
  | zero => exact h0
  | succ n ih => exact hs n _ (Nat.lt_succ_self n) (ih fun i x hi => hs i x (Nat.lt_succ_of_lt hi))

/-- What a block write leaves: the 64 elements of the block are those of `X`, every other is as before. -/
theorem gridRead_blockWrite (g : List (Nat × Elem)) (b : Nat) (X : Block) (e : Nat) :
    gridRead (blockWrite g b X) e = if e / 64 = b then X (lane (e / 8)) (lane e) else gridRead g e := by
  have h := forRange_induct (f := fun i h => gridWrite h (elemIndex b (i / 8) (i % 8)) (X (lane (i / 8)) (lane i)))
    (a := g) (fun n h => gridRead h e =
      if e / 64 = b ∧ e % 64 < n then X (lane (e / 8)) (lane e) else gridRead g e)
    (by simp) 64 ?_
  · simp only [blockWrite, h]
    have : e % 64 < 64 := Nat.mod_lt _ (by decide)
    simp [this]
  · intro i x hi hx
    rw [gridRead_gridWrite]
    by_cases he : elemIndex b (i / 8) (i % 8) = e
    · rw [if_pos he]
      simp only [elemIndex] at he
      have h1 : e / 64 = b := by omega
      have h2 : e % 64 = i := by omega
      have h3 : (lane (i / 8)) = lane (e / 8) := by
        apply Fin.ext
        simp only [lane, Fin.ofNat]
        omega
      have h4 : lane i = lane e := by
        apply Fin.ext
        simp only [lane, Fin.ofNat]
        omega
      rw [if_pos ⟨h1, by omega⟩, h3, h4]
    · rw [if_neg he, hx]
      simp only [elemIndex] at he
      by_cases hc : e / 64 = b ∧ e % 64 < i
      · rw [if_pos hc, if_pos ⟨hc.1, by omega⟩]
      · rw [if_neg hc, if_neg]
        rintro ⟨h1, h2⟩
        apply hc
        refine ⟨h1, ?_⟩
        omega

theorem elemIndex_div (b : Nat) (r col : Fin 8) : elemIndex b r col / 64 = b := by
  simp only [elemIndex]
  omega

theorem lane_elemIndex_row (b : Nat) (r col : Fin 8) : lane (elemIndex b r col / 8) = r := by
  apply Fin.ext
  simp only [elemIndex, lane, Fin.ofNat]
  omega

theorem lane_elemIndex_col (b : Nat) (r col : Fin 8) : lane (elemIndex b r col) = col := by
  apply Fin.ext
  simp only [elemIndex, lane, Fin.ofNat]
  omega

/-- Reading a block after writing one. -/
theorem blockRead_blockWrite (g : List (Nat × Elem)) (b b' : Nat) (X : Block) :
    blockRead (blockWrite g b X) b' = if b' = b then X else blockRead g b' := by
  funext r col
  simp only [blockRead, gridRead_blockWrite, elemIndex_div, lane_elemIndex_row, lane_elemIndex_col]
  split <;> rfl

/-- An element is an element of its block. -/
theorem gridRead_eq_blockRead (g : List (Nat × Elem)) (e : Nat) :
    gridRead g e = blockRead g (e / 64) (lane (e / 8)) (lane e) := by
  simp only [blockRead]
  congr 1
  simp only [elemIndex, lane, Fin.ofNat]
  omega

/-- Reading a block after a block update. -/
theorem blockRead_blockUpdate (f : Block → Block) (g : List (Nat × Elem)) (b b' : Nat) :
    blockRead (blockUpdate f g b) b' = if b' = b then f (blockRead g b) else blockRead g b' := by
  simp only [blockUpdate, blockRead_blockWrite]

/-- Reading an element after a block update. -/
theorem gridRead_blockUpdate (f : Block → Block) (g : List (Nat × Elem)) (b e : Nat) :
    gridRead (blockUpdate f g b) e =
      if e / 64 = b then f (blockRead g b) (lane (e / 8)) (lane e) else gridRead g e := by
  simp only [blockUpdate, gridRead_blockWrite]

/-- What the grid iteration leaves (44_pipeline.md R152): the first `n` blocks are updated, each from its own
old contents, the others are as before. -/
theorem blockRead_gridUpdate (f : Block → Block) (n : Nat) (g : List (Nat × Elem)) (b : Nat) :
    blockRead (gridUpdate f n g) b = if b < n then f (blockRead g b) else blockRead g b := by
  induction n with
  | zero => simp [gridUpdate]
  | succ n ih =>
    have hs : gridUpdate f (n + 1) g = blockUpdate f (gridUpdate f n g) n := rfl
    rw [hs, blockRead_blockUpdate]
    by_cases hb : b = n
    · subst hb
      rw [if_pos rfl, ih, if_neg (Nat.lt_irrefl b), if_pos (Nat.lt_succ_self b)]
    · rw [if_neg hb, ih]
      by_cases hlt : b < n
      · rw [if_pos hlt, if_pos (by omega)]
      · rw [if_neg hlt, if_neg (by omega)]

/-- The same, element by element. -/
theorem gridRead_gridUpdate (f : Block → Block) (n : Nat) (g : List (Nat × Elem)) (e : Nat) :
    gridRead (gridUpdate f n g) e =
      if e / 64 < n then f (blockRead g (e / 64)) (lane (e / 8)) (lane e) else gridRead g e := by
  rw [gridRead_eq_blockRead, blockRead_gridUpdate]
  split
  · rfl
  · rw [gridRead_eq_blockRead g]

/-- Writing a block inside the grid keeps the canonical form. -/
theorem gridWf_blockWrite {n : Nat} {g : List (Nat × Elem)} {b : Nat} (X : Block)
    (hg : Memory.gridWf (64 * n) g) (hb : b < n) : Memory.gridWf (64 * n) (blockWrite g b X) := by
  refine forRange_induct (fun _ h => Memory.gridWf (64 * n) h) hg 64 ?_
  intro i x hi hx
  refine gridWf_gridWrite _ hx ?_
  simp only [elemIndex]
  omega

/-- Updating a block inside the grid keeps the canonical form. -/
theorem gridWf_blockUpdate {n : Nat} {g : List (Nat × Elem)} {b : Nat} (f : Block → Block)
    (hg : Memory.gridWf (64 * n) g) (hb : b < n) : Memory.gridWf (64 * n) (blockUpdate f g b) :=
  gridWf_blockWrite _ hg hb

/-- The grid iteration keeps the canonical form. -/
theorem gridWf_gridUpdate {n k : Nat} {g : List (Nat × Elem)} (f : Block → Block)
    (hg : Memory.gridWf (64 * n) g) (hk : k ≤ n) : Memory.gridWf (64 * n) (gridUpdate f k g) := by
  refine forRange_induct (fun _ h => Memory.gridWf (64 * n) h) hg k ?_
  intro i x hi hx
  exact gridWf_blockUpdate f hx (by omega)

end Sys2Proof.Machine
end

