-- ==== Sys2Proof/Laws/Pixels.lean ====
section
/-! SUPPORT. The mapping between pixels and grid elements is a bijection (spec 40_partition_reconstruct.md R90),
and what the bodies of `PART` and `RECON` leave. -/

namespace Sys2Proof.Machine

variable (c : Cfg)

theorem frameW_eq : c.frameW = 8 * c.bpr := by
  have := c.frameW_mul
  simp only [Cfg.bpr]
  omega

theorem frameH_eq : c.frameH = 8 * c.bpc := by
  have := c.frameH_mul
  simp only [Cfg.bpc]
  omega

theorem bpr_pos : 0 < c.bpr := by
  have h1 := c.frameW_pos
  have h2 := frameW_eq c
  omega

variable {c}

theorem pixelElem_div {px py : Nat} : pixelElem c px py / 64 = pixelBlock c px py := by
  simp only [pixelElem, elemIndex]
  omega

theorem pixelElem_row {px py : Nat} : pixelElem c px py / 8 % 8 = py % 8 := by
  simp only [pixelElem, elemIndex]
  omega

theorem pixelElem_col {px py : Nat} : pixelElem c px py % 8 = px % 8 := by
  simp only [pixelElem, elemIndex]
  omega

theorem pixelBlock_mod {px py : Nat} (hx : px < c.frameW) : pixelBlock c px py % c.bpr = px / 8 := by
  have h := frameW_eq c
  simp only [pixelBlock, blockIndex, Nat.add_mul_mod_self_right]
  exact Nat.mod_eq_of_lt (by omega)

theorem pixelBlock_div {px py : Nat} (hx : px < c.frameW) : pixelBlock c px py / c.bpr = py / 8 := by
  have h := frameW_eq c
  simp only [pixelBlock, blockIndex]
  rw [Nat.add_mul_div_right _ _ (bpr_pos c), Nat.div_eq_of_lt (by omega), Nat.zero_add]

theorem pixelBlock_lt {px py : Nat} (hx : px < c.frameW) (hy : py < c.frameH) :
    pixelBlock c px py < c.nblk := by
  have hw := frameW_eq c
  have hh := frameH_eq c
  have h1 : px / 8 < c.bpr := by omega
  have h2 : py / 8 + 1 ≤ c.bpc := by omega
  calc pixelBlock c px py = px / 8 + py / 8 * c.bpr := rfl
    _ < c.bpr + py / 8 * c.bpr := by omega
    _ = (py / 8 + 1) * c.bpr := by rw [Nat.add_mul, Nat.one_mul, Nat.add_comm]
    _ ≤ c.bpc * c.bpr := Nat.mul_le_mul_right _ h2
    _ = c.nblk := Nat.mul_comm _ _

theorem pixelElem_lt {px py : Nat} (hx : px < c.frameW) (hy : py < c.frameH) :
    pixelElem c px py < c.gridSize := by
  have := pixelBlock_lt hx hy
  simp only [pixelElem, elemIndex, Cfg.gridSize]
  omega

/-- Two pixels of the frame never share an element (R90). -/
theorem pixelElem_inj {px py qx qy : Nat} (hx : px < c.frameW) (hqx : qx < c.frameW)
    (h : pixelElem c px py = pixelElem c qx qy) : px = qx ∧ py = qy := by
  have h1 := pixelElem_row (c := c) (px := px) (py := py)
  have h2 := pixelElem_col (c := c) (px := px) (py := py)
  have h3 := pixelBlock_mod (py := py) hx
  have h4 := pixelBlock_div (py := py) hx
  rw [← pixelElem_div, h, pixelElem_div, pixelBlock_mod hqx] at h3
  rw [← pixelElem_div, h, pixelElem_div, pixelBlock_div hqx] at h4
  rw [h, pixelElem_row] at h1
  rw [h, pixelElem_col] at h2
  omega

/-- Every element of the grid belongs to a pixel of the frame (R90). -/
theorem exists_pixel {e : Nat} (he : e < c.gridSize) :
    ∃ px py, px < c.frameW ∧ py < c.frameH ∧ pixelElem c px py = e := by
  have hw := frameW_eq c
  have hh := frameH_eq c
  have hb := bpr_pos c
  have hblk : e / 64 < c.bpr * c.bpc := by
    simp only [Cfg.gridSize, Cfg.nblk] at he
    omega
  have hmod : e / 64 % c.bpr < c.bpr := Nat.mod_lt _ hb
  have hdiv : e / 64 / c.bpr < c.bpc := (Nat.div_lt_iff_lt_mul hb).2 (by rwa [Nat.mul_comm])
  refine ⟨(e / 64 % c.bpr) * 8 + e % 8, (e / 64 / c.bpr) * 8 + e / 8 % 8, by omega, by omega, ?_⟩
  have hx : ((e / 64 % c.bpr) * 8 + e % 8) / 8 = e / 64 % c.bpr := by omega
  have hy : ((e / 64 / c.bpr) * 8 + e / 8 % 8) / 8 = e / 64 / c.bpr := by omega
  have hb2 : e / 64 % c.bpr + e / 64 / c.bpr * c.bpr = e / 64 := by
    rw [Nat.mul_comm]
    exact Nat.mod_add_div _ _
  simp only [pixelElem, pixelBlock, blockIndex, elemIndex, hx, hy, hb2]
  omega

theorem pixel_of_index {p : Nat} (hp : p < c.npix) : p % c.frameW < c.frameW ∧ p / c.frameW < c.frameH :=
  ⟨Nat.mod_lt _ c.frameW_pos, (Nat.div_lt_iff_lt_mul c.frameW_pos).2 (by rwa [Nat.mul_comm])⟩

theorem index_of_pixel {px py : Nat} (hx : px < c.frameW) (hy : py < c.frameH) :
    py * c.frameW + px < c.npix ∧ (py * c.frameW + px) % c.frameW = px ∧
      (py * c.frameW + px) / c.frameW = py := by
  have hlt : py * c.frameW + px < c.npix := by
    calc py * c.frameW + px < py * c.frameW + c.frameW := by omega
      _ = (py + 1) * c.frameW := by rw [Nat.add_mul, Nat.one_mul]
      _ ≤ c.frameH * c.frameW := Nat.mul_le_mul_right _ hy
      _ = c.npix := Nat.mul_comm _ _
  refine ⟨hlt, ?_, ?_⟩
  · rw [Nat.add_comm, Nat.add_mul_mod_self_right, Nat.mod_eq_of_lt hx]
  · rw [Nat.add_comm, Nat.add_mul_div_right _ _ c.frameW_pos, Nat.div_eq_of_lt hx, Nat.zero_add]

/-- The offset of a channel of the pixel with index `p` (20_memory.md R51). -/
theorem pixelOffset_index (p ch : Nat) :
    pixelOffset c (p % c.frameW) (p / c.frameW) ch = 3 * p + ch := by
  have h : p / c.frameW * c.frameW + p % c.frameW = p := by
    rw [Nat.mul_comm]
    exact Nat.div_add_mod _ _
  simp only [pixelOffset, h]

theorem pixelOffset_lt {px py ch : Nat} (hx : px < c.frameW) (hy : py < c.frameH) (hc : ch < 3) :
    pixelOffset c px py ch < c.pinSize := by
  have := (index_of_pixel hx hy).1
  simp only [pixelOffset, Cfg.pinSize, Config.nch]
  omega

/-- What `PART` leaves (R93): every pixel's luma in its element, and nothing else changed. -/
theorem partGrid_some {pin : List Host.Cell} {grid g : List (Nat × Elem)} (h : partGrid c pin grid = some g) :
    (∀ px py, px < c.frameW → py < c.frameH → pixelLuma c pin px py = some (gridRead g (pixelElem c px py))) ∧
      ∀ e, c.gridSize ≤ e → gridRead g e = gridRead grid e := by
  have key : ∀ g, partGrid c pin grid = some g →
      (∀ p, p < c.npix → pixelLuma c pin (p % c.frameW) (p / c.frameW)
          = some (gridRead g (pixelElem c (p % c.frameW) (p / c.frameW)))) ∧
        ∀ e, c.gridSize ≤ e → gridRead g e = gridRead grid e := by
    refine forRange_induct (fun n acc => ∀ g, acc = some g →
      (∀ p, p < n → pixelLuma c pin (p % c.frameW) (p / c.frameW)
          = some (gridRead g (pixelElem c (p % c.frameW) (p / c.frameW)))) ∧
        ∀ e, c.gridSize ≤ e → gridRead g e = gridRead grid e) ?_ c.npix ?_
    · intro g hg
      cases hg
      exact ⟨fun p hp => absurd hp (Nat.not_lt_zero p), fun _ _ => rfl⟩
    · intro i acc hi ih g hg
      obtain ⟨g0, rfl, hg⟩ := Option.bind_eq_some_iff.1 hg
      obtain ⟨l, hl, rfl⟩ := Option.map_eq_some_iff.1 hg
      obtain ⟨ih1, ih2⟩ := ih g0 rfl
      obtain ⟨hix, hiy⟩ := pixel_of_index hi
      refine ⟨fun p hp => ?_, fun e he => ?_⟩
      · rw [gridRead_gridWrite]
        by_cases hpi : p = i
        · subst hpi
          rw [if_pos rfl, hl]
        · rw [if_neg, ih1 p (by omega)]
          intro heq
          have hpx : p % c.frameW < c.frameW := Nat.mod_lt _ c.frameW_pos
          obtain ⟨e1, e2⟩ := pixelElem_inj hix hpx heq
          apply hpi
          rw [← Nat.div_add_mod p c.frameW, ← Nat.div_add_mod i c.frameW, e1, e2]
      · rw [gridRead_gridWrite, if_neg, ih2 e he]
        have := pixelElem_lt hix hiy
        omega
  obtain ⟨h1, h2⟩ := key g h
  refine ⟨fun px py hx hy => ?_, h2⟩
  obtain ⟨hp, hm, hd⟩ := index_of_pixel hx hy
  have := h1 _ hp
  rwa [hm, hd] at this

/-- `PART` has a result exactly where every pixel has a luma. -/
theorem partGrid_isSome {pin : List Host.Cell} {grid : List (Nat × Elem)}
    (h : ∀ px py, px < c.frameW → py < c.frameH → (pixelLuma c pin px py).isSome) :
    (partGrid c pin grid).isSome := by
  refine forRange_induct (fun _ (acc : Option (List (Nat × Elem))) => acc.isSome) rfl c.npix ?_
  intro i acc hi ih
  obtain ⟨hix, hiy⟩ := pixel_of_index hi
  obtain ⟨g, rfl⟩ := Option.isSome_iff_exists.1 ih
  simpa using h _ _ hix hiy

/-- A pixel has a luma exactly where its three bytes have a value. -/
theorem pixelLuma_isSome {pin : List Host.Cell} {px py : Nat} : (pixelLuma c pin px py).isSome ↔
    ∀ ch, ch < 3 → (Memory.lookup pin (pixelOffset c px py ch)).isSome := by
  simp only [pixelLuma]
  constructor
  · intro h ch hc
    cases h0 : Memory.lookup pin (pixelOffset c px py 0) <;>
      cases h1 : Memory.lookup pin (pixelOffset c px py 1) <;>
        cases h2 : Memory.lookup pin (pixelOffset c px py 2) <;> simp [h0, h1, h2] at h
    rcases (by omega : ch = 0 ∨ ch = 1 ∨ ch = 2) with rfl | rfl | rfl <;> simp [h0, h1, h2]
  · intro h
    obtain ⟨r, hr⟩ := Option.isSome_iff_exists.1 (h 0 (by decide))
    obtain ⟨g, hg⟩ := Option.isSome_iff_exists.1 (h 1 (by decide))
    obtain ⟨b, hb⟩ := Option.isSome_iff_exists.1 (h 2 (by decide))
    simp [hr, hg, hb]

/-- `PART` keeps the canonical form of the grid. -/
theorem gridWf_partGrid {pin : List Host.Cell} {grid g : List (Nat × Elem)}
    (hg : Memory.gridWf c.gridSize grid) (h : partGrid c pin grid = some g) : Memory.gridWf c.gridSize g := by
  have key : ∀ g, partGrid c pin grid = some g → Memory.gridWf c.gridSize g := by
    refine forRange_induct (fun _ acc => ∀ g, acc = some g → Memory.gridWf c.gridSize g) ?_ c.npix ?_
    · intro g h
      cases h
      exact hg
    · intro i acc hi ih g h
      obtain ⟨g0, rfl, h⟩ := Option.bind_eq_some_iff.1 h
      obtain ⟨l, _, rfl⟩ := Option.map_eq_some_iff.1 h
      obtain ⟨hix, hiy⟩ := pixel_of_index hi
      exact gridWf_gridWrite l (ih g0 rfl) (pixelElem_lt hix hiy)
  exact key g h

/-- What `RECON` leaves (R95): every byte of `POUT` is its pixel's output value. -/
theorem lookup_reconPout (grid : List (Nat × Elem)) (pout : List Host.Cell) (a : Nat) :
    Memory.lookup (reconPout c grid pout) a =
      if a < c.pinSize then some (pixelOut c grid (a / 3 % c.frameW) (a / 3 / c.frameW))
      else Memory.lookup pout a := by
  have key := forRange_induct
    (f := fun p m => pixelStore c m (p % c.frameW) (p / c.frameW) (pixelOut c grid (p % c.frameW) (p / c.frameW)))
    (a := pout)
    (fun n m => Memory.lookup m a =
      if a < 3 * n then some (pixelOut c grid (a / 3 % c.frameW) (a / 3 / c.frameW))
      else Memory.lookup pout a) (by simp) c.npix ?_
  · exact key
  · intro i m hi ih
    simp only [pixelStore, Memory.lookup_put, pixelOffset_index, ih]
    by_cases h2 : 3 * i + 2 = a
    · rw [if_pos h2, if_pos (by omega), show a / 3 = i by omega]
    · rw [if_neg h2]
      by_cases h1 : 3 * i + 1 = a
      · rw [if_pos h1, if_pos (by omega), show a / 3 = i by omega]
      · rw [if_neg h1]
        by_cases h0 : 3 * i + 0 = a
        · rw [if_pos h0, if_pos (by omega), show a / 3 = i by omega]
        · rw [if_neg h0]
          by_cases hlt : a < 3 * i
          · rw [if_pos hlt, if_pos (by omega)]
          · rw [if_neg hlt, if_neg (by omega)]

/-- `RECON` keeps the canonical form of `POUT`. -/
theorem wf_reconPout {grid : List (Nat × Elem)} {pout : List Host.Cell}
    (h : Memory.wf c.pinSize pout) : Memory.wf c.pinSize (reconPout c grid pout) := by
  refine forRange_induct (fun _ m => Memory.wf c.pinSize m) h c.npix ?_
  intro i m hi ih
  obtain ⟨hix, hiy⟩ := pixel_of_index hi
  exact Memory.wf_put _ (Memory.wf_put _ (Memory.wf_put _ ih (pixelOffset_lt hix hiy (by decide)))
    (pixelOffset_lt hix hiy (by decide))) (pixelOffset_lt hix hiy (by decide))

end Sys2Proof.Machine
end

