-- ==== Sys2Proof/Laws/State.lean ====
section
/-! SUPPORT. One lemma for each field and each update of the state, so that no proof unfolds a record
update. -/

namespace Sys2Proof.Machine.State

variable (s : State)

@[simp] theorem withVs_vs (x : Vector Word 8) : (s.withVs x).vs = x := rfl
@[simp] theorem withVs_vd (x : Vector Word 8) : (s.withVs x).vd = s.vd := rfl
@[simp] theorem withVs_status (x : Vector Word 8) : (s.withVs x).status = s.status := rfl
@[simp] theorem withVs_finfo (x : Vector Word 8) : (s.withVs x).finfo = s.finfo := rfl
@[simp] theorem withVs_inW (x : Vector Word 8) : (s.withVs x).inW = s.inW := rfl
@[simp] theorem withVs_inH (x : Vector Word 8) : (s.withVs x).inH = s.inH := rfl
@[simp] theorem withVs_pin (x : Vector Word 8) : (s.withVs x).pin = s.pin := rfl
@[simp] theorem withVs_pout (x : Vector Word 8) : (s.withVs x).pout = s.pout := rfl
@[simp] theorem withVs_grid (x : Vector Word 8) : (s.withVs x).grid = s.grid := rfl
@[simp] theorem withVs_pc (x : Vector Word 8) : (s.withVs x).pc = s.pc := rfl
@[simp] theorem withVs_pending (x : Vector Word 8) : (s.withVs x).pending = s.pending := rfl
@[simp] theorem withVs_lastRead (x : Vector Word 8) : (s.withVs x).lastRead = s.lastRead := rfl
@[simp] theorem withVs_epoch (x : Vector Word 8) : (s.withVs x).epoch = s.epoch := rfl

@[simp] theorem withVd_vs (x : Vector Word 8) : (s.withVd x).vs = s.vs := rfl
@[simp] theorem withVd_vd (x : Vector Word 8) : (s.withVd x).vd = x := rfl
@[simp] theorem withVd_status (x : Vector Word 8) : (s.withVd x).status = s.status := rfl
@[simp] theorem withVd_finfo (x : Vector Word 8) : (s.withVd x).finfo = s.finfo := rfl
@[simp] theorem withVd_inW (x : Vector Word 8) : (s.withVd x).inW = s.inW := rfl
@[simp] theorem withVd_inH (x : Vector Word 8) : (s.withVd x).inH = s.inH := rfl
@[simp] theorem withVd_pin (x : Vector Word 8) : (s.withVd x).pin = s.pin := rfl
@[simp] theorem withVd_pout (x : Vector Word 8) : (s.withVd x).pout = s.pout := rfl
@[simp] theorem withVd_grid (x : Vector Word 8) : (s.withVd x).grid = s.grid := rfl
@[simp] theorem withVd_pc (x : Vector Word 8) : (s.withVd x).pc = s.pc := rfl
@[simp] theorem withVd_pending (x : Vector Word 8) : (s.withVd x).pending = s.pending := rfl
@[simp] theorem withVd_lastRead (x : Vector Word 8) : (s.withVd x).lastRead = s.lastRead := rfl
@[simp] theorem withVd_epoch (x : Vector Word 8) : (s.withVd x).epoch = s.epoch := rfl

@[simp] theorem withStatus_vs (x : Word) : (s.withStatus x).vs = s.vs := rfl
@[simp] theorem withStatus_vd (x : Word) : (s.withStatus x).vd = s.vd := rfl
@[simp] theorem withStatus_status (x : Word) : (s.withStatus x).status = x := rfl
@[simp] theorem withStatus_finfo (x : Word) : (s.withStatus x).finfo = s.finfo := rfl
@[simp] theorem withStatus_inW (x : Word) : (s.withStatus x).inW = s.inW := rfl
@[simp] theorem withStatus_inH (x : Word) : (s.withStatus x).inH = s.inH := rfl
@[simp] theorem withStatus_pin (x : Word) : (s.withStatus x).pin = s.pin := rfl
@[simp] theorem withStatus_pout (x : Word) : (s.withStatus x).pout = s.pout := rfl
@[simp] theorem withStatus_grid (x : Word) : (s.withStatus x).grid = s.grid := rfl
@[simp] theorem withStatus_pc (x : Word) : (s.withStatus x).pc = s.pc := rfl
@[simp] theorem withStatus_pending (x : Word) : (s.withStatus x).pending = s.pending := rfl
@[simp] theorem withStatus_lastRead (x : Word) : (s.withStatus x).lastRead = s.lastRead := rfl
@[simp] theorem withStatus_epoch (x : Word) : (s.withStatus x).epoch = s.epoch := rfl

@[simp] theorem withFinfo_vs (x : Word) : (s.withFinfo x).vs = s.vs := rfl
@[simp] theorem withFinfo_vd (x : Word) : (s.withFinfo x).vd = s.vd := rfl
@[simp] theorem withFinfo_status (x : Word) : (s.withFinfo x).status = s.status := rfl
@[simp] theorem withFinfo_finfo (x : Word) : (s.withFinfo x).finfo = x := rfl
@[simp] theorem withFinfo_inW (x : Word) : (s.withFinfo x).inW = s.inW := rfl
@[simp] theorem withFinfo_inH (x : Word) : (s.withFinfo x).inH = s.inH := rfl
@[simp] theorem withFinfo_pin (x : Word) : (s.withFinfo x).pin = s.pin := rfl
@[simp] theorem withFinfo_pout (x : Word) : (s.withFinfo x).pout = s.pout := rfl
@[simp] theorem withFinfo_grid (x : Word) : (s.withFinfo x).grid = s.grid := rfl
@[simp] theorem withFinfo_pc (x : Word) : (s.withFinfo x).pc = s.pc := rfl
@[simp] theorem withFinfo_pending (x : Word) : (s.withFinfo x).pending = s.pending := rfl
@[simp] theorem withFinfo_lastRead (x : Word) : (s.withFinfo x).lastRead = s.lastRead := rfl
@[simp] theorem withFinfo_epoch (x : Word) : (s.withFinfo x).epoch = s.epoch := rfl

@[simp] theorem withInW_vs (x : BitVec 16) : (s.withInW x).vs = s.vs := rfl
@[simp] theorem withInW_vd (x : BitVec 16) : (s.withInW x).vd = s.vd := rfl
@[simp] theorem withInW_status (x : BitVec 16) : (s.withInW x).status = s.status := rfl
@[simp] theorem withInW_finfo (x : BitVec 16) : (s.withInW x).finfo = s.finfo := rfl
@[simp] theorem withInW_inW (x : BitVec 16) : (s.withInW x).inW = x := rfl
@[simp] theorem withInW_inH (x : BitVec 16) : (s.withInW x).inH = s.inH := rfl
@[simp] theorem withInW_pin (x : BitVec 16) : (s.withInW x).pin = s.pin := rfl
@[simp] theorem withInW_pout (x : BitVec 16) : (s.withInW x).pout = s.pout := rfl
@[simp] theorem withInW_grid (x : BitVec 16) : (s.withInW x).grid = s.grid := rfl
@[simp] theorem withInW_pc (x : BitVec 16) : (s.withInW x).pc = s.pc := rfl
@[simp] theorem withInW_pending (x : BitVec 16) : (s.withInW x).pending = s.pending := rfl
@[simp] theorem withInW_lastRead (x : BitVec 16) : (s.withInW x).lastRead = s.lastRead := rfl
@[simp] theorem withInW_epoch (x : BitVec 16) : (s.withInW x).epoch = s.epoch := rfl

@[simp] theorem withInH_vs (x : BitVec 16) : (s.withInH x).vs = s.vs := rfl
@[simp] theorem withInH_vd (x : BitVec 16) : (s.withInH x).vd = s.vd := rfl
@[simp] theorem withInH_status (x : BitVec 16) : (s.withInH x).status = s.status := rfl
@[simp] theorem withInH_finfo (x : BitVec 16) : (s.withInH x).finfo = s.finfo := rfl
@[simp] theorem withInH_inW (x : BitVec 16) : (s.withInH x).inW = s.inW := rfl
@[simp] theorem withInH_inH (x : BitVec 16) : (s.withInH x).inH = x := rfl
@[simp] theorem withInH_pin (x : BitVec 16) : (s.withInH x).pin = s.pin := rfl
@[simp] theorem withInH_pout (x : BitVec 16) : (s.withInH x).pout = s.pout := rfl
@[simp] theorem withInH_grid (x : BitVec 16) : (s.withInH x).grid = s.grid := rfl
@[simp] theorem withInH_pc (x : BitVec 16) : (s.withInH x).pc = s.pc := rfl
@[simp] theorem withInH_pending (x : BitVec 16) : (s.withInH x).pending = s.pending := rfl
@[simp] theorem withInH_lastRead (x : BitVec 16) : (s.withInH x).lastRead = s.lastRead := rfl
@[simp] theorem withInH_epoch (x : BitVec 16) : (s.withInH x).epoch = s.epoch := rfl

@[simp] theorem withPin_vs (x : List Host.Cell) : (s.withPin x).vs = s.vs := rfl
@[simp] theorem withPin_vd (x : List Host.Cell) : (s.withPin x).vd = s.vd := rfl
@[simp] theorem withPin_status (x : List Host.Cell) : (s.withPin x).status = s.status := rfl
@[simp] theorem withPin_finfo (x : List Host.Cell) : (s.withPin x).finfo = s.finfo := rfl
@[simp] theorem withPin_inW (x : List Host.Cell) : (s.withPin x).inW = s.inW := rfl
@[simp] theorem withPin_inH (x : List Host.Cell) : (s.withPin x).inH = s.inH := rfl
@[simp] theorem withPin_pin (x : List Host.Cell) : (s.withPin x).pin = x := rfl
@[simp] theorem withPin_pout (x : List Host.Cell) : (s.withPin x).pout = s.pout := rfl
@[simp] theorem withPin_grid (x : List Host.Cell) : (s.withPin x).grid = s.grid := rfl
@[simp] theorem withPin_pc (x : List Host.Cell) : (s.withPin x).pc = s.pc := rfl
@[simp] theorem withPin_pending (x : List Host.Cell) : (s.withPin x).pending = s.pending := rfl
@[simp] theorem withPin_lastRead (x : List Host.Cell) : (s.withPin x).lastRead = s.lastRead := rfl
@[simp] theorem withPin_epoch (x : List Host.Cell) : (s.withPin x).epoch = s.epoch := rfl

@[simp] theorem withPout_vs (x : List Host.Cell) : (s.withPout x).vs = s.vs := rfl
@[simp] theorem withPout_vd (x : List Host.Cell) : (s.withPout x).vd = s.vd := rfl
@[simp] theorem withPout_status (x : List Host.Cell) : (s.withPout x).status = s.status := rfl
@[simp] theorem withPout_finfo (x : List Host.Cell) : (s.withPout x).finfo = s.finfo := rfl
@[simp] theorem withPout_inW (x : List Host.Cell) : (s.withPout x).inW = s.inW := rfl
@[simp] theorem withPout_inH (x : List Host.Cell) : (s.withPout x).inH = s.inH := rfl
@[simp] theorem withPout_pin (x : List Host.Cell) : (s.withPout x).pin = s.pin := rfl
@[simp] theorem withPout_pout (x : List Host.Cell) : (s.withPout x).pout = x := rfl
@[simp] theorem withPout_grid (x : List Host.Cell) : (s.withPout x).grid = s.grid := rfl
@[simp] theorem withPout_pc (x : List Host.Cell) : (s.withPout x).pc = s.pc := rfl
@[simp] theorem withPout_pending (x : List Host.Cell) : (s.withPout x).pending = s.pending := rfl
@[simp] theorem withPout_lastRead (x : List Host.Cell) : (s.withPout x).lastRead = s.lastRead := rfl
@[simp] theorem withPout_epoch (x : List Host.Cell) : (s.withPout x).epoch = s.epoch := rfl

@[simp] theorem withGrid_vs (x : List (Nat × Elem)) : (s.withGrid x).vs = s.vs := rfl
@[simp] theorem withGrid_vd (x : List (Nat × Elem)) : (s.withGrid x).vd = s.vd := rfl
@[simp] theorem withGrid_status (x : List (Nat × Elem)) : (s.withGrid x).status = s.status := rfl
@[simp] theorem withGrid_finfo (x : List (Nat × Elem)) : (s.withGrid x).finfo = s.finfo := rfl
@[simp] theorem withGrid_inW (x : List (Nat × Elem)) : (s.withGrid x).inW = s.inW := rfl
@[simp] theorem withGrid_inH (x : List (Nat × Elem)) : (s.withGrid x).inH = s.inH := rfl
@[simp] theorem withGrid_pin (x : List (Nat × Elem)) : (s.withGrid x).pin = s.pin := rfl
@[simp] theorem withGrid_pout (x : List (Nat × Elem)) : (s.withGrid x).pout = s.pout := rfl
@[simp] theorem withGrid_grid (x : List (Nat × Elem)) : (s.withGrid x).grid = x := rfl
@[simp] theorem withGrid_pc (x : List (Nat × Elem)) : (s.withGrid x).pc = s.pc := rfl
@[simp] theorem withGrid_pending (x : List (Nat × Elem)) : (s.withGrid x).pending = s.pending := rfl
@[simp] theorem withGrid_lastRead (x : List (Nat × Elem)) : (s.withGrid x).lastRead = s.lastRead := rfl
@[simp] theorem withGrid_epoch (x : List (Nat × Elem)) : (s.withGrid x).epoch = s.epoch := rfl

@[simp] theorem withPc_vs (x : Nat) : (s.withPc x).vs = s.vs := rfl
@[simp] theorem withPc_vd (x : Nat) : (s.withPc x).vd = s.vd := rfl
@[simp] theorem withPc_status (x : Nat) : (s.withPc x).status = s.status := rfl
@[simp] theorem withPc_finfo (x : Nat) : (s.withPc x).finfo = s.finfo := rfl
@[simp] theorem withPc_inW (x : Nat) : (s.withPc x).inW = s.inW := rfl
@[simp] theorem withPc_inH (x : Nat) : (s.withPc x).inH = s.inH := rfl
@[simp] theorem withPc_pin (x : Nat) : (s.withPc x).pin = s.pin := rfl
@[simp] theorem withPc_pout (x : Nat) : (s.withPc x).pout = s.pout := rfl
@[simp] theorem withPc_grid (x : Nat) : (s.withPc x).grid = s.grid := rfl
@[simp] theorem withPc_pc (x : Nat) : (s.withPc x).pc = x := rfl
@[simp] theorem withPc_pending (x : Nat) : (s.withPc x).pending = s.pending := rfl
@[simp] theorem withPc_lastRead (x : Nat) : (s.withPc x).lastRead = s.lastRead := rfl
@[simp] theorem withPc_epoch (x : Nat) : (s.withPc x).epoch = s.epoch := rfl

@[simp] theorem withPending_vs (x : List HostAction) : (s.withPending x).vs = s.vs := rfl
@[simp] theorem withPending_vd (x : List HostAction) : (s.withPending x).vd = s.vd := rfl
@[simp] theorem withPending_status (x : List HostAction) : (s.withPending x).status = s.status := rfl
@[simp] theorem withPending_finfo (x : List HostAction) : (s.withPending x).finfo = s.finfo := rfl
@[simp] theorem withPending_inW (x : List HostAction) : (s.withPending x).inW = s.inW := rfl
@[simp] theorem withPending_inH (x : List HostAction) : (s.withPending x).inH = s.inH := rfl
@[simp] theorem withPending_pin (x : List HostAction) : (s.withPending x).pin = s.pin := rfl
@[simp] theorem withPending_pout (x : List HostAction) : (s.withPending x).pout = s.pout := rfl
@[simp] theorem withPending_grid (x : List HostAction) : (s.withPending x).grid = s.grid := rfl
@[simp] theorem withPending_pc (x : List HostAction) : (s.withPending x).pc = s.pc := rfl
@[simp] theorem withPending_pending (x : List HostAction) : (s.withPending x).pending = x := rfl
@[simp] theorem withPending_lastRead (x : List HostAction) : (s.withPending x).lastRead = s.lastRead := rfl
@[simp] theorem withPending_epoch (x : List HostAction) : (s.withPending x).epoch = s.epoch := rfl

@[simp] theorem withLastRead_vs (x : Option HostData) : (s.withLastRead x).vs = s.vs := rfl
@[simp] theorem withLastRead_vd (x : Option HostData) : (s.withLastRead x).vd = s.vd := rfl
@[simp] theorem withLastRead_status (x : Option HostData) : (s.withLastRead x).status = s.status := rfl
@[simp] theorem withLastRead_finfo (x : Option HostData) : (s.withLastRead x).finfo = s.finfo := rfl
@[simp] theorem withLastRead_inW (x : Option HostData) : (s.withLastRead x).inW = s.inW := rfl
@[simp] theorem withLastRead_inH (x : Option HostData) : (s.withLastRead x).inH = s.inH := rfl
@[simp] theorem withLastRead_pin (x : Option HostData) : (s.withLastRead x).pin = s.pin := rfl
@[simp] theorem withLastRead_pout (x : Option HostData) : (s.withLastRead x).pout = s.pout := rfl
@[simp] theorem withLastRead_grid (x : Option HostData) : (s.withLastRead x).grid = s.grid := rfl
@[simp] theorem withLastRead_pc (x : Option HostData) : (s.withLastRead x).pc = s.pc := rfl
@[simp] theorem withLastRead_pending (x : Option HostData) : (s.withLastRead x).pending = s.pending := rfl
@[simp] theorem withLastRead_lastRead (x : Option HostData) : (s.withLastRead x).lastRead = x := rfl
@[simp] theorem withLastRead_epoch (x : Option HostData) : (s.withLastRead x).epoch = s.epoch := rfl

@[simp] theorem withEpoch_vs (x : Nat) : (s.withEpoch x).vs = s.vs := rfl
@[simp] theorem withEpoch_vd (x : Nat) : (s.withEpoch x).vd = s.vd := rfl
@[simp] theorem withEpoch_status (x : Nat) : (s.withEpoch x).status = s.status := rfl
@[simp] theorem withEpoch_finfo (x : Nat) : (s.withEpoch x).finfo = s.finfo := rfl
@[simp] theorem withEpoch_inW (x : Nat) : (s.withEpoch x).inW = s.inW := rfl
@[simp] theorem withEpoch_inH (x : Nat) : (s.withEpoch x).inH = s.inH := rfl
@[simp] theorem withEpoch_pin (x : Nat) : (s.withEpoch x).pin = s.pin := rfl
@[simp] theorem withEpoch_pout (x : Nat) : (s.withEpoch x).pout = s.pout := rfl
@[simp] theorem withEpoch_grid (x : Nat) : (s.withEpoch x).grid = s.grid := rfl
@[simp] theorem withEpoch_pc (x : Nat) : (s.withEpoch x).pc = s.pc := rfl
@[simp] theorem withEpoch_pending (x : Nat) : (s.withEpoch x).pending = s.pending := rfl
@[simp] theorem withEpoch_lastRead (x : Nat) : (s.withEpoch x).lastRead = s.lastRead := rfl
@[simp] theorem withEpoch_epoch (x : Nat) : (s.withEpoch x).epoch = x := rfl

/-! Updates one after another, in one order: `grid` first, then `pout`, then `pc`. -/

@[simp] theorem withGrid_withGrid (x y : List (Nat × Elem)) : (s.withGrid x).withGrid y = s.withGrid y := rfl
@[simp] theorem withPout_withPout (x y : List Host.Cell) : (s.withPout x).withPout y = s.withPout y := rfl
@[simp] theorem withPc_withPc (x y : Nat) : (s.withPc x).withPc y = s.withPc y := rfl
@[simp] theorem withPc_withGrid (x : Nat) (y : List (Nat × Elem)) :
    (s.withPc x).withGrid y = (s.withGrid y).withPc x := rfl
@[simp] theorem withPc_withPout (x : Nat) (y : List Host.Cell) :
    (s.withPc x).withPout y = (s.withPout y).withPc x := rfl
@[simp] theorem withPout_withGrid (x : List Host.Cell) (y : List (Nat × Elem)) :
    (s.withPout x).withGrid y = (s.withGrid y).withPout x := rfl

end Sys2Proof.Machine.State
end

