-- ==== Sys2Proof/Laws/Commands.lean ====
section
/-! SUPPORT. What the shared operations of the commands and of the host's port can answer: one lemma for each. -/

namespace Sys2Proof.Machine

/-- The memories after reset are canonical (10_state.md R37). -/
theorem memories_reset (c : Cfg) : Memory.wf c.pinSize State.reset.pin ∧ Memory.wf c.pinSize State.reset.pout ∧
    Memory.gridWf c.gridSize State.reset.grid := by
  simp [State.reset, Memory.wf, Memory.gridWf]

@[simp] theorem complete_eq (s : State) : complete s = .next (s.withPc (s.pc + 1)) := rfl

@[simp] theorem raise_eq (f : HwFault) (info : Word) (s : State) :
    raise f info s = .next ((s.withStatus (statusFaulted s.status (causeCode f))).withFinfo info) := rfl

theorem shapeOk_iff (c : Cfg) (s : State) :
    shapeOk c s = true ↔ s.inW.toNat = c.frameW ∧ s.inH.toNat = c.frameH := by
  simp [shapeOk]

theorem whenShapeOk_ok {c : Cfg} {s : State} (h : shapeOk c s = true) (r : Result) :
    whenShapeOk c s r = r := if_pos h

theorem whenShapeOk_fault {c : Cfg} {s : State} (h : shapeOk c s = false) (r : Result) :
    whenShapeOk c s r = raise .inputShape (s.inH ++ s.inW) s := by
  simp [whenShapeOk, h]

theorem onBlock_ok {c : Cfg} {blk : BitVec 16} (h : blk.toNat < c.nblk) (word : Word) (s : State)
    (body : Nat → Result) : onBlock c blk word s body = body blk.toNat := if_pos h

theorem onBlock_illegal {c : Cfg} {blk : BitVec 16} (h : ¬ blk.toNat < c.nblk) (word : Word) (s : State)
    (body : Nat → Result) : onBlock c blk word s body = raise .illegalCommand word s := if_neg h

/-- With every byte of `PIN` written, `PART` has a result. -/
theorem partGrid_of_pinWritten {c : Cfg} {s : State} (h : pinWritten c s) :
    ∃ g, partGrid c s.pin s.grid = some g := by
  refine Option.isSome_iff_exists.1 (partGrid_isSome fun px py hx hy => ?_)
  rw [pixelLuma_isSome]
  intro ch hc
  exact h _ (pixelOffset_lt hx hy hc)

/-- With a byte of `PIN` unwritten, it has none. -/
theorem partGrid_of_not_pinWritten {c : Cfg} {s : State} {a : Nat} (ha : a < c.pinSize)
    (h : Memory.lookup s.pin a = none) : partGrid c s.pin s.grid = none := by
  cases hp : partGrid c s.pin s.grid with
  | none => rfl
  | some g =>
    exfalso
    have hi : a / 3 < c.npix := by
      simp only [Cfg.pinSize, Config.nch] at ha
      omega
    obtain ⟨hx, hy⟩ := pixel_of_index hi
    have h1 := (partGrid_some hp).1 _ _ hx hy
    have h2 : (pixelLuma c s.pin (a / 3 % c.frameW) (a / 3 / c.frameW)).isSome = true := by simp [h1]
    have h3 := pixelLuma_isSome.1 h2 (a % 3) (Nat.mod_lt _ (by decide))
    rw [pixelOffset_index, show 3 * (a / 3) + a % 3 = a from Nat.div_add_mod a 3, h] at h3
    cases h3

theorem withPartition_some {c : Cfg} {s : State} {g : List (Nat × Elem)}
    (h : partGrid c s.pin s.grid = some g) (k : List (Nat × Elem) → Result) : withPartition c s k = k g := by
  simp [withPartition, h]

theorem withPartition_none {c : Cfg} {s : State} (h : partGrid c s.pin s.grid = none)
    (k : List (Nat × Elem) → Result) : withPartition c s k = .refused .unwrittenPin := by
  simp [withPartition, h]

/-- A 1D command whose guards hold. -/
theorem vectorCmd_ok {w : Fin 8 → Vec8} {s : State} (h : guardsHold w (lanes s.vs)) (y : Vec8) :
    vectorCmd w y s = complete (s.withVd (ofLanes y)) := by
  simp only [vectorCmd]
  rw [(firstFailing8_eq_none _).2 h]

/-- A 1D command whose lowest failing guard is that of output `k`. -/
theorem vectorCmd_fault {w : Fin 8 → Vec8} {s : State} {k : Fin 8} (hk : guardOk (w k) (lanes s.vs) = false)
    (hlt : ∀ j, j < k → guardOk (w j) (lanes s.vs) = true) (y : Vec8) :
    vectorCmd w y s = raise .arithOverflow (BitVec.ofNat 32 k.val) s := by
  simp only [vectorCmd]
  rw [(firstFailing8_eq_some _ k).2 ⟨hk, hlt⟩]

@[simp] theorem lanes_ofLanes (x : Vec8) (i : Fin 8) : lanes (ofLanes x) i = (BitVec.ofInt 32 (x i)).toInt := by
  simp [lanes, ofLanes]

/-! ### This hardware's sizes (00_scope.md R5) -/

theorem hw_frameW : Config.hw.frameW = 720 := rfl
theorem hw_frameH : Config.hw.frameH = 480 := rfl
theorem hw_nblk : Config.hw.nblk = 5400 := rfl
theorem hw_npix : Config.hw.npix = 345600 := rfl
theorem hw_pinSize : Config.hw.pinSize = 1036800 := rfl
theorem hw_gridSize : Config.hw.gridSize = 345600 := rfl

/-! ### What each command answers, under the conditions of its rule, on any configuration -/

section AnyConfiguration

variable (c : Cfg) (s : State)

theorem fwd2dOn_eq {blk : BitVec 16} (h : blk.toNat < c.nblk) : fwd2dOn c blk s =
    .next ((s.withGrid (blockUpdate (fwd2D c.matrix) s.grid blk.toNat)).withPc (s.pc + 1)) := onBlock_ok h ..

theorem inv2dOn_eq {blk : BitVec 16} (h : blk.toNat < c.nblk) : inv2dOn c blk s =
    .next ((s.withGrid (blockUpdate (inv2D c.matrix) s.grid blk.toNat)).withPc (s.pc + 1)) := onBlock_ok h ..

theorem qntOn_eq {blk : BitVec 16} (h : blk.toNat < c.nblk) : qntOn c blk s =
    .next ((s.withGrid (blockUpdate quantBlock s.grid blk.toNat)).withPc (s.pc + 1)) := onBlock_ok h ..

theorem dqtOn_eq {blk : BitVec 16} (h : blk.toNat < c.nblk) (hf : blockFits (blockRead s.grid blk.toNat) = true) :
    dqtOn c blk s = .next ((s.withGrid (blockUpdate dequantBlock s.grid blk.toNat)).withPc (s.pc + 1)) := by
  simp only [dqtOn, onBlock_ok h, hf, if_true, complete_eq, State.withGrid_pc]

theorem dqtOn_fault {blk : BitVec 16} (h : blk.toNat < c.nblk)
    (hf : blockFits (blockRead s.grid blk.toNat) = false) :
    dqtOn c blk s = raise .arithOverflow (BitVec.ofNat 32 blk.toNat) s := by
  simp only [dqtOn, onBlock_ok h, hf, Bool.false_eq_true, if_false]

theorem fwd2dGOn_eq : fwd2dGOn c s =
    .next ((s.withGrid (gridUpdate (fwd2D c.matrix) c.nblk s.grid)).withPc (s.pc + 1)) := rfl

theorem inv2dGOn_eq : inv2dGOn c s =
    .next ((s.withGrid (gridUpdate (inv2D c.matrix) c.nblk s.grid)).withPc (s.pc + 1)) := rfl

theorem qntGOn_eq : qntGOn c s =
    .next ((s.withGrid (gridUpdate quantBlock c.nblk s.grid)).withPc (s.pc + 1)) := rfl

theorem dqtGOn_eq (h : firstOverflow c.nblk s.grid = none) : dqtGOn c s =
    .next ((s.withGrid (gridUpdate dequantBlock c.nblk s.grid)).withPc (s.pc + 1)) := by
  simp only [dqtGOn, h, complete_eq, State.withGrid_pc]

theorem dqtGOn_fault {b : Nat} (h : firstOverflow c.nblk s.grid = some b) :
    dqtGOn c s = raise .arithOverflow (BitVec.ofNat 32 b) (s.withGrid (gridUpdate dequantBlock b s.grid)) := by
  simp only [dqtGOn, h]

theorem reconOn_eq : reconOn c s = .next ((s.withPout (reconPout c s.grid s.pout)).withPc (s.pc + 1)) := rfl

theorem partOn_eq (hs : shapeOk c s = true) {g : List (Nat × Elem)} (hg : partGrid c s.pin s.grid = some g) :
    partOn c s = .next ((s.withGrid g).withPc (s.pc + 1)) := by
  simp only [partOn, whenShapeOk_ok hs, withPartition_some hg, complete_eq, State.withGrid_pc]

theorem partOn_shape (hs : shapeOk c s = false) : partOn c s = raise .inputShape (s.inH ++ s.inW) s :=
  whenShapeOk_fault hs _

theorem partOn_unwritten (hs : shapeOk c s = true) (hg : partGrid c s.pin s.grid = none) :
    partOn c s = .refused .unwrittenPin := by
  simp only [partOn, whenShapeOk_ok hs, withPartition_none hg]

theorem runOn_eq (hs : shapeOk c s = true) {g : List (Nat × Elem)} (hg : partGrid c s.pin s.grid = some g) :
    runOn c s = .next (((s.withGrid (codecGrid c g)).withPout (reconPout c (codecGrid c g) s.pout)).withPc
      (s.pc + 1)) := by
  simp only [runOn, whenShapeOk_ok hs, withPartition_some hg, complete_eq, State.withPout_pc, State.withGrid_pc]

theorem runOn_shape (hs : shapeOk c s = false) : runOn c s = raise .inputShape (s.inH ++ s.inW) s :=
  whenShapeOk_fault hs _

theorem runOn_unwritten (hs : shapeOk c s = true) (hg : partGrid c s.pin s.grid = none) :
    runOn c s = .refused .unwrittenPin := by
  simp only [runOn, whenShapeOk_ok hs, withPartition_none hg]

end AnyConfiguration

/-! ### Each command of this hardware is the command of any configuration, on `Config.hw`. A proof goes through these
and the lemmas above over a variable configuration: on `Config.hw` itself a loop over the grid would be unrolled. -/

theorem exec_part_on (s : State) : exec .part s = partOn Config.hw s := rfl
theorem exec_fwd2d_on (blk : BitVec 16) (s : State) : exec (.fwd2d blk) s = fwd2dOn Config.hw blk s := rfl
theorem exec_fwd2dG_on (s : State) : exec .fwd2dG s = fwd2dGOn Config.hw s := rfl
theorem exec_qnt_on (blk : BitVec 16) (s : State) : exec (.qnt blk) s = qntOn Config.hw blk s := rfl
theorem exec_qntG_on (s : State) : exec .qntG s = qntGOn Config.hw s := rfl
theorem exec_dqt_on (blk : BitVec 16) (s : State) : exec (.dqt blk) s = dqtOn Config.hw blk s := rfl
theorem exec_dqtG_on (s : State) : exec .dqtG s = dqtGOn Config.hw s := rfl
theorem exec_inv2d_on (blk : BitVec 16) (s : State) : exec (.inv2d blk) s = inv2dOn Config.hw blk s := rfl
theorem exec_inv2dG_on (s : State) : exec .inv2dG s = inv2dGOn Config.hw s := rfl
theorem exec_recon_on (s : State) : exec .recon s = reconOn Config.hw s := rfl
theorem exec_run_on (s : State) : exec .run s = runOn Config.hw s := rfl
theorem exec_fwd1d_on (s : State) : exec .fwd1d s = fwd1dOn Config.hw s := rfl
theorem exec_inv1d_on (s : State) : exec .inv1d s = inv1dOn Config.hw s := rfl

/-- The fields of `STATUS` after a fault: `FAULT` 1, `CAUSE` the code (10_state.md R27, 60_exceptions.md R165). -/
theorem faultBit_statusFaulted (st : Word) (cause : BitVec 4) : faultBit (statusFaulted st cause) = 1 := by
  apply BitVec.eq_of_getLsbD_eq
  intro i hi
  have : i = 0 := by omega
  subst this
  simp only [faultBit, statusFaulted, BitVec.getLsbD_extractLsb', BitVec.getLsbD_append]
  simp

theorem causeOf_statusFaulted (st : Word) (cause : BitVec 4) : causeOf (statusFaulted st cause) = cause := by
  apply BitVec.eq_of_getLsbD_eq
  intro i hi
  simp only [causeOf, statusFaulted, BitVec.getLsbD_extractLsb', BitVec.getLsbD_append]
  have h1 : ¬ (4 + i < 1) := by omega
  simp [h1, hi]

/-- The other bits of `STATUS` are kept (R165). -/
theorem low_statusFaulted (st : Word) (cause : BitVec 4) :
    (statusFaulted st cause).extractLsb' 1 3 = st.extractLsb' 1 3 := by
  apply BitVec.eq_of_getLsbD_eq
  intro i hi
  simp only [statusFaulted, BitVec.getLsbD_extractLsb', BitVec.getLsbD_append]
  simp [hi]

theorem high_statusFaulted (st : Word) (cause : BitVec 4) :
    (statusFaulted st cause).extractLsb' 8 24 = st.extractLsb' 8 24 := by
  apply BitVec.eq_of_getLsbD_eq
  intro i hi
  simp only [statusFaulted, BitVec.getLsbD_extractLsb', BitVec.getLsbD_append]
  rw [if_neg (by omega), if_neg (by omega), if_neg (by omega), show 8 + i - 1 - 3 - 4 = i by omega]
  simp [hi]

theorem statusFaulted_zero (f : HwFault) : statusFaulted 0 (causeCode f) =
    match f with | .inputShape => 0x11 | .arithOverflow => 0x21 | .illegalCommand => 0x31 := by
  cases f <;> decide

/-- Two shape words `IN_H ++ IN_W` (60_exceptions.md R160) are the same only for the same shape. -/
theorem shapeWord_inj {a b x y : BitVec 16} (h : a ++ b = x ++ y) : a = x ∧ b = y := by
  have hi : ∀ u v : BitVec 16, (u ++ v).extractLsb' 16 16 = u := fun u v => by
    apply BitVec.eq_of_getLsbD_eq
    intro i hi
    simp only [BitVec.getLsbD_extractLsb', BitVec.getLsbD_append]
    simp [hi]
  have lo : ∀ u v : BitVec 16, (u ++ v).extractLsb' 0 16 = v := fun u v => by
    apply BitVec.eq_of_getLsbD_eq
    intro i hi
    simp only [BitVec.getLsbD_extractLsb', BitVec.getLsbD_append]
    simp [hi]
  exact ⟨by rw [← hi a b, h, hi], by rw [← lo a b, h, lo]⟩

theorem faulted_iff (s : State) : faulted s = true ↔ faultBit s.status = 1 := by
  simp [faulted]

/-- A step with a command word at the head of the host's list (10_state.md R30). -/
theorem step_cmd {s : State} {w : Word} {rest : List HostAction}
    (h : s.pending = .writeReg 0x00 w :: rest) : step s = cmdWrite w (s.withPending rest) := by
  simp only [step, nextAction, h, hostAct, hostActOn, writeReg, if_true]

theorem cmdWrite_faulted {s : State} (h : faulted s = true) (w : Word) : cmdWrite w s = .next s := by
  simp [cmdWrite, h]

theorem cmdWrite_command {s : State} (h : faulted s = false) {w : Word} {i : Instr}
    (hd : decode w = .command i) : cmdWrite w s = exec i s := by
  simp [cmdWrite, h, hd]

theorem cmdWrite_illegal {s : State} (h : faulted s = false) {w : Word} {r : Illegal}
    (hd : decode w = .illegal r) : cmdWrite w s = raise .illegalCommand w s := by
  simp only [cmdWrite, h, hd, Bool.false_eq_true, if_false]

theorem inSpace_ok {size a : Nat} (h : a < size) (sp : Space) (r : Result) : inSpace size sp a r = r := if_pos h

theorem inSpace_fault {size a : Nat} (h : ¬ a < size) (sp : Space) (r : Result) :
    inSpace size sp a r = .fault (.offsetOutOfRange sp a) := if_neg h

end Sys2Proof.Machine
end

