-- ==== Sys2Proof/Laws/Decode.lean ====
section
/-! SUPPORT. The fields of an encoded word, and a word from its fields (spec 30_encoding.md R71). -/

namespace Sys2Proof

theorem opcodeOf_commandWord (op : BitVec 8) (g : BitVec 1) (blk : BitVec 16) :
    opcodeOf (commandWord op g blk) = op := by
  apply BitVec.eq_of_toNat_eq
  have h1 := op.isLt
  have h2 := g.isLt
  have h3 := blk.isLt
  simp only [opcodeOf, commandWord, BitVec.extractLsb'_toNat, BitVec.toNat_append, BitVec.toNat_ofNat,
    ← Nat.shiftLeft_add_eq_or_of_lt h3, ← Nat.shiftLeft_add_eq_or_of_lt h2]
  rw [← Nat.shiftLeft_add_eq_or_of_lt (by decide : 0 % 2 ^ 7 < 2 ^ 7)]
  simp only [Nat.shiftLeft_eq, Nat.shiftRight_eq_div_pow]
  omega

theorem zeroOf_commandWord (op : BitVec 8) (g : BitVec 1) (blk : BitVec 16) :
    zeroOf (commandWord op g blk) = 0 := by
  apply BitVec.eq_of_toNat_eq
  have h1 := op.isLt
  have h2 := g.isLt
  have h3 := blk.isLt
  simp only [zeroOf, commandWord, BitVec.extractLsb'_toNat, BitVec.toNat_append, BitVec.toNat_ofNat,
    ← Nat.shiftLeft_add_eq_or_of_lt h3, ← Nat.shiftLeft_add_eq_or_of_lt h2]
  rw [← Nat.shiftLeft_add_eq_or_of_lt (by decide : 0 % 2 ^ 7 < 2 ^ 7)]
  simp only [Nat.shiftLeft_eq, Nat.shiftRight_eq_div_pow]
  change _ = 0
  omega

theorem gOf_commandWord (op : BitVec 8) (g : BitVec 1) (blk : BitVec 16) :
    gOf (commandWord op g blk) = g := by
  apply BitVec.eq_of_toNat_eq
  have h1 := op.isLt
  have h2 := g.isLt
  have h3 := blk.isLt
  simp only [gOf, commandWord, BitVec.extractLsb'_toNat, BitVec.toNat_append, BitVec.toNat_ofNat,
    ← Nat.shiftLeft_add_eq_or_of_lt h3, ← Nat.shiftLeft_add_eq_or_of_lt h2]
  rw [← Nat.shiftLeft_add_eq_or_of_lt (by decide : 0 % 2 ^ 7 < 2 ^ 7)]
  simp only [Nat.shiftLeft_eq, Nat.shiftRight_eq_div_pow]
  omega

theorem blkOf_commandWord (op : BitVec 8) (g : BitVec 1) (blk : BitVec 16) :
    blkOf (commandWord op g blk) = blk := by
  apply BitVec.eq_of_toNat_eq
  have h1 := op.isLt
  have h2 := g.isLt
  have h3 := blk.isLt
  simp only [blkOf, commandWord, BitVec.extractLsb'_toNat, BitVec.toNat_append, BitVec.toNat_ofNat,
    ← Nat.shiftLeft_add_eq_or_of_lt h3, ← Nat.shiftLeft_add_eq_or_of_lt h2]
  rw [← Nat.shiftLeft_add_eq_or_of_lt (by decide : 0 % 2 ^ 7 < 2 ^ 7)]
  simp only [Nat.shiftLeft_eq, Nat.shiftRight_eq_div_pow]
  omega

/-- A word with a `zero` field of 0 is the word of its other fields. -/
theorem commandWord_of_fields {w : Word} (h : zeroOf w = 0) :
    commandWord (opcodeOf w) (gOf w) (blkOf w) = w := by
  apply BitVec.eq_of_toNat_eq
  have hz : (zeroOf w).toNat = 0 := by rw [h]; rfl
  have hw := w.isLt
  have h2 := (gOf w).isLt
  have h3 := (blkOf w).isLt
  simp only [commandWord, BitVec.toNat_append, BitVec.toNat_ofNat,
    ← Nat.shiftLeft_add_eq_or_of_lt h3, ← Nat.shiftLeft_add_eq_or_of_lt h2]
  rw [← Nat.shiftLeft_add_eq_or_of_lt (by decide : 0 % 2 ^ 7 < 2 ^ 7)]
  simp only [zeroOf, BitVec.extractLsb'_toNat, Nat.shiftRight_eq_div_pow] at hz
  simp only [opcodeOf, gOf, blkOf, BitVec.extractLsb'_toNat, Nat.shiftLeft_eq, Nat.shiftRight_eq_div_pow]
  omega

/-- `G` is 0 or 1. -/
theorem gOf_cases (w : Word) : gOf w = 0 ∨ gOf w = 1 := by
  have h := (gOf w).isLt
  rcases (by omega : (gOf w).toNat = 0 ∨ (gOf w).toNat = 1) with h | h
  · exact .inl (BitVec.eq_of_toNat_eq h)
  · exact .inr (BitVec.eq_of_toNat_eq h)

end Sys2Proof
end

