-- ==== Sys2Proof/Laws/Exec.lean ====
section
/-! SUPPORT. Everything a command can answer, said once: it completes, or it raises one of the three faults of
spec 60_exceptions.md R160, or it is refused. -/

namespace Sys2Proof.Machine

/-- The command `i` has completed: only `VD`, `GRID` and `POUT` can have changed, each by its own writers, the
memories are still canonical, and `pc` is one further (10_state.md R23). -/
def Completed (c : Cfg) (i : Instr) (s t : State) : Prop :=
  ∃ vd grid pout, t = (((s.withVd vd).withGrid grid).withPout pout).withPc (s.pc + 1) ∧
    (i ≠ .fwd1d → i ≠ .inv1d → vd = s.vd) ∧ (i ≠ .recon → i ≠ .run → pout = s.pout) ∧
    (i = .fwd1d ∨ i = .inv1d ∨ i = .recon → grid = s.grid) ∧
    (Memory.gridWf c.gridSize s.grid → Memory.gridWf c.gridSize grid) ∧
    (Memory.wf c.pinSize s.pout → Memory.wf c.pinSize pout)

/-- Which command raises which fault, with which information (60_exceptions.md R160). -/
def Causes (c : Cfg) (i : Instr) (s : State) (f : HwFault) (info : Word) : Prop :=
  match f with
  | .inputShape => (i = .part ∨ i = .run) ∧ shapeOk c s = false ∧ info = s.inH ++ s.inW
  | .arithOverflow => ((i = .fwd1d ∨ i = .inv1d) ∧ info.toNat < 8) ∨
      (((∃ b, i = .dqt b) ∨ i = .dqtG) ∧ info.toNat < c.nblk)
  | .illegalCommand => info = encode i ∧ i.wfOn c.nblk = false

/-- The command `i` has raised a fault: `STATUS` and `FINFO` are written, and only `DQT.G` can have changed
`GRID` (60_exceptions.md R164, R165). -/
def Faulted (c : Cfg) (i : Instr) (s t : State) : Prop :=
  ∃ f info grid, t = ((s.withGrid grid).withStatus (statusFaulted s.status (causeCode f))).withFinfo info ∧
    Causes c i s f info ∧ (i ≠ .dqtG → grid = s.grid) ∧
    (Memory.gridWf c.gridSize s.grid → Memory.gridWf c.gridSize grid)

variable {c : Cfg} {i : Instr} {s t : State}

theorem completed_grid {grid : List (Nat × Elem)} (hi : i ≠ .fwd1d ∧ i ≠ .inv1d ∧ i ≠ .recon)
    (hg : Memory.gridWf c.gridSize s.grid → Memory.gridWf c.gridSize grid)
    (h : Host.Outcome.next ((s.withGrid grid).withPc (s.pc + 1)) = (.next t : Result)) : Completed c i s t := by
  cases h
  exact ⟨s.vd, grid, s.pout, rfl, fun _ _ => rfl, fun _ _ => rfl,
    fun h => by rcases h with h | h | h <;> simp_all, hg, fun h => h⟩

theorem faulted_same {f : HwFault} {info : Word} (hc : Causes c i s f info)
    (h : raise f info s = .next t) : Faulted c i s t := by
  cases h
  exact ⟨f, info, s.grid, rfl, hc, fun _ => rfl, fun h => h⟩

theorem vectorCmd_cases {w : Fin 8 → Vec8} {y : Vec8} (hi : i = .fwd1d ∨ i = .inv1d)
    (h : vectorCmd w y s = .next t) : Completed c i s t ∨ Faulted c i s t := by
  simp only [vectorCmd] at h
  split at h
  · rename_i k _
    refine .inr (faulted_same (f := .arithOverflow) (Or.inl ⟨hi, ?_⟩) h)
    rw [BitVec.toNat_ofNat]
    omega
  · cases h
    exact .inl ⟨ofLanes y, s.grid, s.pout, rfl, fun h1 h2 => by simp_all, fun _ _ => rfl, fun _ => rfl,
      fun h => h, fun h => h⟩

theorem blockCmd_cases {blk : BitVec 16} {f : Block → Block} (hi : i ≠ .fwd1d ∧ i ≠ .inv1d ∧ i ≠ .recon)
    (hw : i.wfOn c.nblk = decide (blk.toNat < c.nblk))
    (h : onBlock c blk (encode i) s (fun b => complete (s.withGrid (blockUpdate f s.grid b))) = .next t) :
    Completed c i s t ∨ Faulted c i s t := by
  by_cases hb : blk.toNat < c.nblk
  · rw [onBlock_ok hb] at h
    exact .inl (completed_grid hi (fun hg => gridWf_blockUpdate f hg hb) h)
  · rw [onBlock_illegal hb] at h
    exact .inr (faulted_same (f := .illegalCommand) ⟨rfl, by simp [hw, hb]⟩ h)

theorem gridCmd_cases {f : Block → Block} (hi : i ≠ .fwd1d ∧ i ≠ .inv1d ∧ i ≠ .recon)
    (h : complete (s.withGrid (gridUpdate f c.nblk s.grid)) = .next t) :
    Completed c i s t ∨ Faulted c i s t :=
  .inl (completed_grid hi (fun hg => gridWf_gridUpdate f hg (Nat.le_refl c.nblk)) h)

theorem dqtOn_cases {blk : BitVec 16} (h : dqtOn c blk s = .next t) :
    Completed c (.dqt blk) s t ∨ Faulted c (.dqt blk) s t := by
  by_cases hb : blk.toNat < c.nblk
  · cases hf : blockFits (blockRead s.grid blk.toNat) with
    | true =>
      rw [dqtOn_eq c s hb hf] at h
      exact .inl (completed_grid (by simp) (fun hg => gridWf_blockUpdate _ hg hb) h)
    | false =>
      rw [dqtOn_fault c s hb hf] at h
      refine .inr (faulted_same (f := .arithOverflow) (Or.inr ⟨.inl ⟨_, rfl⟩, ?_⟩) h)
      rw [BitVec.toNat_ofNat, Nat.mod_eq_of_lt (by omega)]
      exact hb
  · simp only [dqtOn, onBlock_illegal hb] at h
    exact .inr (faulted_same (f := .illegalCommand) ⟨rfl, by simp [Instr.wfOn, hb]⟩ h)

theorem dqtGOn_cases (hn : c.nblk ≤ 2 ^ 32) (h : dqtGOn c s = .next t) :
    Completed c .dqtG s t ∨ Faulted c .dqtG s t := by
  cases hf : firstOverflow c.nblk s.grid with
  | none =>
    rw [dqtGOn_eq c s hf] at h
    exact .inl (completed_grid (by simp) (fun hg => gridWf_gridUpdate _ hg (Nat.le_refl c.nblk)) h)
  | some b =>
    have hb := ((firstOverflow_eq_some _ _ _).1 hf).1
    rw [dqtGOn_fault c s hf] at h
    cases h
    refine .inr ⟨.arithOverflow, _, _, rfl, Or.inr ⟨.inr rfl, ?_⟩, fun h => absurd rfl h,
      fun hg => gridWf_gridUpdate _ hg (Nat.le_of_lt hb)⟩
    rw [BitVec.toNat_ofNat, Nat.mod_eq_of_lt (by omega)]
    exact hb

theorem partOn_cases (h : partOn c s = .next t) : Completed c .part s t ∨ Faulted c .part s t := by
  cases hs : shapeOk c s with
  | false =>
    rw [partOn_shape c s hs] at h
    exact .inr (faulted_same (f := .inputShape) ⟨.inl rfl, hs, rfl⟩ h)
  | true =>
    cases hg : partGrid c s.pin s.grid with
    | none => simp [partOn_unwritten c s hs hg] at h
    | some g =>
      rw [partOn_eq c s hs hg] at h
      exact .inl (completed_grid (by simp) (fun hw => gridWf_partGrid hw hg) h)

theorem gridWf_codecGrid {g : List (Nat × Elem)} (hg : Memory.gridWf c.gridSize g) :
    Memory.gridWf c.gridSize (codecGrid c g) :=
  gridWf_gridUpdate _ (gridWf_gridUpdate _ (gridWf_gridUpdate _ (gridWf_gridUpdate _ hg (Nat.le_refl _))
    (Nat.le_refl _)) (Nat.le_refl _)) (Nat.le_refl _)

theorem runOn_cases (h : runOn c s = .next t) : Completed c .run s t ∨ Faulted c .run s t := by
  cases hs : shapeOk c s with
  | false =>
    rw [runOn_shape c s hs] at h
    exact .inr (faulted_same (f := .inputShape) ⟨.inr rfl, hs, rfl⟩ h)
  | true =>
    cases hg : partGrid c s.pin s.grid with
    | none => simp [runOn_unwritten c s hs hg] at h
    | some g =>
      rw [runOn_eq c s hs hg] at h
      cases h
      exact .inl ⟨s.vd, _, _, rfl, fun _ _ => rfl, fun _ h => absurd rfl h, by simp,
        fun hw => gridWf_codecGrid (gridWf_partGrid hw hg), wf_reconPout⟩

theorem reconOn_cases (h : reconOn c s = .next t) : Completed c .recon s t ∨ Faulted c .recon s t := by
  rw [reconOn_eq c s] at h
  cases h
  exact .inl ⟨s.vd, s.grid, _, rfl, fun _ _ => rfl, fun h => absurd rfl h, fun _ => rfl, fun h => h,
    wf_reconPout⟩

/-- Everything `exec` can answer with a next state. -/
theorem exec_cases (h : exec i s = .next t) : Completed Config.hw i s t ∨ Faulted Config.hw i s t := by
  have hn : Config.hw.nblk ≤ 2 ^ 32 := by rw [hw_nblk]; decide
  cases i with
  | part => exact partOn_cases h
  | fwd2d blk => exact blockCmd_cases (by simp) rfl h
  | fwd2dG => exact gridCmd_cases (by simp) h
  | qnt blk => exact blockCmd_cases (by simp) rfl h
  | qntG => exact gridCmd_cases (by simp) h
  | dqt blk => exact dqtOn_cases h
  | dqtG => exact dqtGOn_cases hn h
  | inv2d blk => exact blockCmd_cases (by simp) rfl h
  | inv2dG => exact gridCmd_cases (by simp) h
  | recon => exact reconOn_cases h
  | run => exact runOn_cases h
  | fwd1d => exact vectorCmd_cases (.inl rfl) h
  | inv1d => exact vectorCmd_cases (.inr rfl) h

end Sys2Proof.Machine
end

