-- ==== Sys2Proof/Laws/PerInstr.lean ====
section
/-! SUPPORT. For each command, what its word holds: the opcode of spec 30_encoding.md R73, a `zero` field of 0
(R71, R75 (b)) and `blk` 0 where `G` is 1 (R75 (d)). -/

namespace Sys2Proof.Laws.EncodedFields

/-- The opcode column of R73. -/
def opcode : Instr → BitVec 8
  | .part => 0x01
  | .fwd2d _ => 0x02
  | .fwd2dG => 0x02
  | .qnt _ => 0x03
  | .qntG => 0x03
  | .dqt _ => 0x04
  | .dqtG => 0x04
  | .inv2d _ => 0x05
  | .inv2dG => 0x05
  | .recon => 0x06
  | .run => 0x07
  | .fwd1d => 0x10
  | .inv1d => 0x11

/-- What the word of the command holds. -/
def Statement (i : Instr) : Prop :=
  opcodeOf (encode i) = opcode i ∧ zeroOf (encode i) = 0 ∧ (gOf (encode i) = 1 → blkOf (encode i) = 0)

theorem of_commandWord {i : Instr} {op : BitVec 8} {g : BitVec 1} {blk : BitVec 16}
    (h : encode i = commandWord op g blk) (ho : op = opcode i) (hg : g = 1 → blk = 0) : Statement i := by
  refine ⟨?_, ?_, ?_⟩
  · rw [h, opcodeOf_commandWord, ho]
  · rw [h, zeroOf_commandWord]
  · rw [h, gOf_commandWord, blkOf_commandWord]
    exact hg

theorem part : Statement .part := of_commandWord rfl rfl (by decide)
theorem fwd2d (blk : BitVec 16) : Statement (.fwd2d blk) := of_commandWord rfl rfl (by simp)
theorem fwd2dG : Statement .fwd2dG := of_commandWord rfl rfl (by decide)
theorem qnt (blk : BitVec 16) : Statement (.qnt blk) := of_commandWord rfl rfl (by simp)
theorem qntG : Statement .qntG := of_commandWord rfl rfl (by decide)
theorem dqt (blk : BitVec 16) : Statement (.dqt blk) := of_commandWord rfl rfl (by simp)
theorem dqtG : Statement .dqtG := of_commandWord rfl rfl (by decide)
theorem inv2d (blk : BitVec 16) : Statement (.inv2d blk) := of_commandWord rfl rfl (by simp)
theorem inv2dG : Statement .inv2dG := of_commandWord rfl rfl (by decide)
theorem recon : Statement .recon := of_commandWord rfl rfl (by decide)
theorem run : Statement .run := of_commandWord rfl rfl (by decide)
theorem fwd1d : Statement .fwd1d := of_commandWord rfl rfl (by decide)
theorem inv1d : Statement .inv1d := of_commandWord rfl rfl (by decide)

end Sys2Proof.Laws.EncodedFields
end

