-- ==== Sys2Proof/Tests/Slice0.lean ====
section
/-! SUPPORT. The model's own tests. Expected results are those of spec 95_test_vectors.md (the vector's id stands
in each comment) or are worked out by hand from the rule cited. -/

namespace Sys2Proof.Tests

set_option Elab.async false

open Sys2Proof.Machine

/-! ### Well-formedness: an ill-formed term for each check, and the boundary (30_encoding.md R72, R75 (e)) -/

theorem test_wf_fwd2d_bad : (Instr.fwd2d 5400).wf = false := by decide
theorem test_wf_qnt_bad : (Instr.qnt 5400).wf = false := by decide
theorem test_wf_dqt_bad : (Instr.dqt 65535).wf = false := by decide
theorem test_wf_inv2d_bad : (Instr.inv2d 5400).wf = false := by decide
theorem test_wf_last_block : (Instr.fwd2d 5399).wf = true ∧ (Instr.run).wf = true := by decide

/-! ### Decoding: one word for each constructor, written out from R73, and the illegal words of 95 section 3.1 -/

theorem test_decode_part : decode 0x01000000 = .command .part := by decide
theorem test_decode_fwd2d : decode 0x0200005B = .command (.fwd2d 91) := by decide
theorem test_decode_fwd2d_last : decode 0x02001517 = .command (.fwd2d 5399) := by decide
theorem test_decode_fwd2dG : decode 0x02010000 = .command .fwd2dG := by decide
theorem test_decode_qnt : decode 0x03000000 = .command (.qnt 0) := by decide
theorem test_decode_qntG : decode 0x03010000 = .command .qntG := by decide
theorem test_decode_dqt : decode 0x04000011 = .command (.dqt 17) := by decide
theorem test_decode_dqtG : decode 0x04010000 = .command .dqtG := by decide
theorem test_decode_inv2d : decode 0x05000010 = .command (.inv2d 16) := by decide
theorem test_decode_inv2dG : decode 0x05010000 = .command .inv2dG := by decide
theorem test_decode_recon : decode 0x06000000 = .command .recon := by decide
theorem test_decode_run : decode 0x07000000 = .command .run := by decide
theorem test_decode_fwd1d : decode 0x10000000 = .command .fwd1d := by decide
theorem test_decode_inv1d : decode 0x11000000 = .command .inv1d := by decide
/-- The opcode field `0001_0001` bit by bit, the other 24 bits 0 (R71). -/
theorem test_decode_bits : decode 0b00010001000000000000000000000000#32 = .command .inv1d := by decide
/-- Opcode 4, zero field 0, `G` 1, `blk` 0, bit by bit (R71, R74). -/
theorem test_decode_bits_grid : decode 0b00000100000000010000000000000000#32 = .command .dqtG := by decide
theorem test_illegal_range : decode 0x02001518 = .illegal .blockRange ∧ decode 0x0200FFFF = .illegal .blockRange := by
  decide
theorem test_illegal_grid_blk : decode 0x02010001 = .illegal .gridBlk := by decide
theorem test_illegal_zero_field : decode 0x02020000 = .illegal .zeroField ∧
    decode 0xFFFFFFFF = .illegal .zeroField ∧ decode 0x01800000 = .illegal .zeroField := by decide
theorem test_illegal_stray : decode 0x06010000 = .illegal .strayField ∧ decode 0x06000001 = .illegal .strayField ∧
    decode 0x10010000 = .illegal .strayField ∧ decode 0x11000005 = .illegal .strayField := by decide
theorem test_illegal_opcode : decode 0x00000000 = .illegal .opcode ∧ decode 0x08000000 = .illegal .opcode ∧
    decode 0x0F000000 = .illegal .opcode ∧ decode 0x12000000 = .illegal .opcode := by decide
theorem test_decode_small_frame : decodeOn 2 0x0200005B = .illegal .blockRange ∧
    decodeOn 2 0x02000001 = .command (.fwd2d 1) := by decide
theorem test_encode : encode (.fwd2d 91) = 0x0200005B ∧ encode .qntG = 0x03010000 ∧ encode .run = 0x07000000 := by
  decide
theorem test_table_word : decodeTableWord 32 0x05000010 = some (.inv2d 16) ∧ decodeTableWord 32 0 = none := by decide

/-! ### The example configuration `CFG_EX` on the 16x8 frame `CFG16` (95 section 1): the spec's own, not nevic's -/

/-- `M_EX`. -/
def exRows : List (List Int) :=
  [[12, 12, 12, 12, 12, 12, 12, 12], [16, 15, 9, 4, -4, -9, -15, -16],
   [16, 6, -6, -16, -16, -6, 6, 16], [15, -4, -16, -9, 9, 16, 4, -15]] ++
  [[12, -12, -12, 12, 12, -12, -12, 12], [9, -16, 4, 15, -15, -4, 16, -9],
   [6, -16, 16, -6, -6, 16, -16, 6], [4, -9, 15, -16, 16, -15, 9, -4]]

/-- A table of rows as an 8×8 array. -/
def ofRows (rows : List (List Int)) : Work := fun r col => (rows.getD r.val []).getD col.val 0

/-- The default instance of `ReconConv` (40_partition_reconstruct.md R96): divide exactly, clamp, truncate. -/
def exRecon (v : Elem) (s : Rat) : Byte :=
  if v.toInt ≤ 0 then 0
  else if 255 * s ≤ (v.toInt : Rat) then 255
  else BitVec.ofInt 8 (v.toInt * s.den / s.num)

theorem exRecon_high (v : Elem) (s : Rat) (hs : 0 < s) (h : Config.reconHigh 24 s ≤ (v.toInt : Rat)) :
    exRecon v s = 255 := by
  have h255 : 255 * s ≤ (v.toInt : Rat) := by
    have := Config.lt_reconHigh 24 hs
    linarith
  have hv : ¬ v.toInt ≤ 0 := by
    intro hle
    have : (v.toInt : Rat) ≤ 0 := by exact_mod_cast hle
    linarith
  simp [exRecon, hv, h255]

theorem exRecon_one (v : Elem) (h0 : 0 ≤ v.toInt) (h1 : v.toInt ≤ 255) : ((exRecon v 1).toNat : Int) = v.toInt := by
  by_cases hz : v.toInt ≤ 0
  · simp only [exRecon, if_pos hz]
    simp
    omega
  · by_cases h2 : 255 * (1 : Rat) ≤ (v.toInt : Rat)
    · simp only [exRecon, if_neg hz, if_pos h2]
      rw [mul_one] at h2
      have : (255 : Int) ≤ v.toInt := by exact_mod_cast h2
      simp
      omega
    · simp only [exRecon, if_neg hz, if_neg h2]
      rw [BitVec.toNat_ofInt]
      simp
      omega

theorem exLuma_toNat (r g b : Byte) : (BitVec.ofNat 16 (Config.weightedSum r g b / 1000)).toNat =
    Config.weightedSum r g b / 1000 := by
  have := Config.weightedSum_le r g b
  rw [BitVec.toNat_ofNat]
  omega

/-- A frame of `wd` by `ht` pixels with `M_EX`, a flat Scale Table and the default instances. -/
def exCfg (wd ht : Nat) (hw : 0 < wd) (hh : 0 < ht) (mw : wd % 8 = 0) (mh : ht % 8 = 0) (s : Rat) (hs : 0 < s) :
    Cfg where
  frameW := wd
  frameH := ht
  matrix := ofRows exRows
  scale := fun _ _ => s
  luma := fun r g b => BitVec.ofNat 16 (Config.weightedSum r g b / 1000)
  recon := exRecon
  floatBits := 24
  frameW_pos := hw
  frameH_pos := hh
  frameW_mul := mw
  frameH_mul := mh
  matrix_bound := by decide
  scale_pos := fun _ _ => hs
  luma_le := fun r g b => by
    have := Config.weightedSum_le r g b
    rw [exLuma_toNat]
    omega
  luma_near := fun r g b => .inl (exLuma_toNat r g b)
  recon_nonpos := fun v s _ h => by simp [exRecon, h]
  floatBits_min := by decide
  recon_high := exRecon_high
  recon_one := exRecon_one

/-- `CFG16` with `CFG_EX`: 16×8 pixels, `S_EX` = 81/4. -/
def cfg16 : Cfg := exCfg 16 8 (by decide) (by decide) (by decide) (by decide) (81 / 4) (by norm_num)

/-! ### Small states and what is read from them -/

/-- The reset state with `VS` set. -/
def withVec (x : List Int) : State :=
  State.reset.withVs (Vector.ofFn fun i => BitVec.ofInt 32 (x.getD i.val 0))

/-- A table of rows as a block of elements. -/
def blockOf (rows : List (List Int)) : Block := fun r col => toElem (ofRows rows r col)

/-- The reset state with one block of the grid set. -/
def withBlock (b : Nat) (rows : List (List Int)) : State :=
  State.reset.withGrid (blockWrite [] b (blockOf rows))

/-- A block as rows of integers. -/
def rowsOf (X : Block) : List (List Int) :=
  (List.finRange 8).map fun r => (List.finRange 8).map fun col => (X r col).toInt

/-- Does the command answer a next state of which `p` holds? -/
def gives (r : Result) (p : State → Bool) : Bool :=
  match r with
  | .next t => p t
  | .fault _ => false
  | .refused _ => false

/-- `VD` as integers. -/
def vdOf (t : State) : List Int := t.vd.toList.map BitVec.toInt

/-! ### Witnesses: for every statement with hypotheses, states and operands that meet all of them together -/

open Sys2Proof.Claims

/-- `n` bytes of 0 from offset `k` on. -/
def zerosFrom (k : Nat) : Nat → List Host.Cell
  | 0 => []
  | n + 1 => (k, 0) :: zerosFrom (k + 1) n

theorem lookup_zerosFrom (k n a : Nat) (h1 : k ≤ a) (h2 : a < k + n) :
    Memory.lookup (zerosFrom k n) a = some 0 := by
  induction n generalizing k with
  | zero => omega
  | succ n ih =>
    simp only [zerosFrom, Memory.lookup_cons]
    split
    · rfl
    · exact ih (k + 1) (by omega) (by omega)

/-- A state with the frame size of `c` declared and every byte of `PIN` written. -/
def ready (c : Cfg) : State :=
  ((State.reset.withInW (BitVec.ofNat 16 c.frameW)).withInH (BitVec.ofNat 16 c.frameH)).withPin (zerosFrom 0 c.pinSize)

theorem ready_pin (c : Cfg) (a : Nat) (h : a < c.pinSize) : Memory.lookup (ready c).pin a = some 0 :=
  lookup_zerosFrom 0 _ a (Nat.zero_le a) (by omega)

theorem ready_shape : (ready Config.hw).inW.toNat = 720 ∧ (ready Config.hw).inH.toNat = 480 := ⟨rfl, rfl⟩

theorem ready_faulted (c : Cfg) : faulted (ready c) = false := rfl

theorem witness_StepTakesTheNextHostAction : State.reset.pending = [] ∧
    (State.reset.withPending [.readReg 1]).pending = [.readReg 1] := ⟨rfl, rfl⟩

theorem witness_CmdWriteRunsTheDecodedCommand :
    let s := State.reset.withPending [.writeReg 0x00 0x07000000]
    let u := State.reset.withPending [.writeReg 0x00 0]
    s.pending = [.writeReg 0x00 0x07000000] ∧ faulted s = false ∧ decode 0x07000000 = .command .run ∧
      u.pending = [.writeReg 0x00 0] ∧ faulted u = false ∧ decode 0 = .illegal .opcode ∧
      faulted (s.withStatus 0x31) = true := by decide

theorem witness_PlacedWordIsWhatTheStepRuns :
    faulted State.reset = false ∧ decodeTableWord 32 0x02001517 = some (.fwd2d 5399) := by decide

theorem witness_DecodeOfEncode : (Instr.fwd2d 5399).wf = true ∧ Instr.run.wf = true := by decide

theorem witness_EncodeOfDecode : decode 0x05001517 = .command (.inv2d 5399) := by decide

/-- One word of each of the kinds (a) to (e), and one of none. -/
theorem witness_IllegalWordsFaultAndNoOthers :
    illegalShape 0x08000000 ∧ illegalShape 0x02020000 ∧ illegalShape 0x06010000 ∧ illegalShape 0x06000001 ∧
      illegalShape 0x02010001 ∧ illegalShape 0x02001518 ∧ ¬ illegalShape 0x02001517 ∧
      (State.reset.withPending [.writeReg 0x00 0x08000000]).pending = [.writeReg 0x00 0x08000000] ∧
      faulted (State.reset.withPending [.writeReg 0x00 0x08000000]) = false := by
  unfold illegalShape illegalFields
  refine ⟨?_, ?_, ?_, ?_, ?_, ?_, ?_, rfl, ?_⟩ <;> decide

theorem witness_IllFormedBlockCommandFaults : 5400 ≤ (5400 : BitVec 16).toNat ∧
    Instr.dqt 5400 ∈ blockCommands 5400 ∧ Instr.fwd2d 5400 ∈ blockCommands 5400 ∧
    Instr.qnt 5400 ∈ blockCommands 5400 ∧ Instr.inv2d 5400 ∈ blockCommands 5400 := by decide

theorem lanes_reset (i : Fin 8) : lanes State.reset.vs i = 0 := by
  simp [lanes, State.reset]

/-- The guards hold at reset; with `M_EX` and V1D.22 that of output 2 is the lowest that fails, and with
`VS[3] = -2^31` that of output 0. -/
theorem witness_Fwd1dResult : (∀ k, guardWithin (Config.hw.matrix k) (lanes State.reset.vs)) ∧
    (¬ guardWithin (cfg16.matrix 2) (lanes (withVec [0, 0, 0, -134217728]).vs) ∧
      ∀ j, j < 2 → guardWithin (cfg16.matrix j) (lanes (withVec [0, 0, 0, -134217728]).vs)) ∧
    (¬ guardWithin (cfg16.matrix 0) (lanes (withVec [0, 0, 0, -2147483648]).vs) ∧
      ∀ j : Fin 8, j < 0 → guardWithin (cfg16.matrix j) (lanes (withVec [0, 0, 0, -2147483648]).vs)) := by
  refine ⟨fun k => ?_, ?_, ?_⟩
  · simp [guardWithin, guardTotal, lanes_reset]
  · unfold guardWithin guardTotal
    decide +kernel
  · unfold guardWithin guardTotal
    decide +kernel

/-- The same for `INV1D`: V1D.21, and a state whose lowest failing output is 2. -/
theorem witness_Inv1dResult : (∀ n, guardWithin (fun k => Config.hw.matrix k n) (lanes State.reset.vs)) ∧
    (¬ guardWithin (fun k => cfg16.matrix k 0) (lanes (withVec [0, 134217728]).vs) ∧
      ∀ j : Fin 8, j < 0 → guardWithin (fun k => cfg16.matrix k j) (lanes (withVec [0, 134217728]).vs)) ∧
    (¬ guardWithin (fun k => cfg16.matrix k 1) (lanes (withVec [0, 0, 0, 0, 0, 134217728]).vs) ∧
      ∀ j : Fin 8, j < 1 → guardWithin (fun k => cfg16.matrix k j) (lanes (withVec [0, 0, 0, 0, 0, 134217728]).vs)) := by
  refine ⟨fun k => ?_, ?_, ?_⟩
  · simp [guardWithin, guardTotal, lanes_reset]
  · unfold guardWithin guardTotal
    decide +kernel
  · unfold guardWithin guardTotal
    decide +kernel

theorem witness_VectorEngineReadsTheMatrixOut :
    (∀ j, lanes (withVec [16]).vs j = if j = 0 then 16 else 0) ∧
    ∀ j, lanes (withVec [0, 0, 0, 0, 0, 0, 0, 16]).vs j = if j = 7 then 16 else 0 := by decide +kernel

/-- The magnitudes sum to exactly `2^27 - 1`. -/
theorem witness_GuardBoundsEveryPartialSum :
    guardOk (ofRows exRows 2) (lanes (withVec [100, -50, 25]).vs) = true ∧
    ∑ i, (lanes (withVec [100, -50, 25, 0, 0, 0, 0, 134217552]).vs i).natAbs ≤ 2 ^ 27 - 1 := by decide +kernel

theorem witness_TransformsNeverOverflow : (Instr.fwd2d 5399).wf = true ∧ isTransform (.fwd2d 5399) = true ∧
    ∃ t, exec (.fwd2d 5399) State.reset = .next t :=
  ⟨by decide, rfl, _, fwd2dOn_eq Config.hw State.reset (blk := 5399) (by decide)⟩

/-- The last block, for `Fwd2dResult`, `Inv2dResult`, `QntResult`, `QuantiseThenDequantiseClearsLowBits` and
`PseudoInstructionsNeverFault`. -/
theorem witness_lastBlock : (5399 : BitVec 16).toNat < 5400 ∧ (0 : BitVec 16).toNat < 5400 := by decide

/-- Both ends of the range, and one past each (43_quantization.md R142). -/
theorem witness_DqtResult : (5399 : BitVec 16).toNat < 5400 ∧
    (∀ r col, -1024 ≤ elemAt (withBlock 5399 [[1023, -1024]]).grid 5399 r col ∧
      elemAt (withBlock 5399 [[1023, -1024]]).grid 5399 r col ≤ 1023) ∧
    (∃ r col, elemAt (withBlock 5399 [[1024]]).grid 5399 r col < -1024 ∨
      1023 < elemAt (withBlock 5399 [[1024]]).grid 5399 r col) ∧
    ∃ r col, elemAt (withBlock 5399 [[-1025]]).grid 5399 r col < -1024 ∨
      1023 < elemAt (withBlock 5399 [[-1025]]).grid 5399 r col := by
  refine ⟨by decide, by decide +kernel, ⟨0, 0, by decide +kernel⟩, ⟨0, 0, by decide +kernel⟩⟩

theorem elemAt_reset (b : Nat) (r col : Fin 8) : elemAt State.reset.grid b r col = 0 := rfl

/-- Block `b` holds 1024 in its first element and nothing else is listed. -/
theorem elemAt_one (b : Nat) (v : Elem) (j : Nat) (r col : Fin 8) (h : j < b) : elemAt [(b * 64, v)] j r col = 0 := by
  simp only [elemAt, gridRead, Memory.lookup_cons]
  rw [if_neg (by omega)]
  rfl

theorem witness_DqtGridResult :
    (∀ b r col, b < 5400 → -1024 ≤ elemAt State.reset.grid b r col ∧ elemAt State.reset.grid b r col ≤ 1023) ∧
    (5399 < 5400 ∧ (∃ r col, elemAt [(5399 * 64, 1024)] 5399 r col < -1024 ∨ 1023 < elemAt [(5399 * 64, 1024)] 5399 r col) ∧
      ∀ j r col, j < 5399 → -1024 ≤ elemAt [(5399 * 64, 1024)] j r col ∧ elemAt [(5399 * 64, 1024)] j r col ≤ 1023) ∧
    ((∃ r col, elemAt [(0 * 64, 1024)] 0 r col < -1024 ∨ 1023 < elemAt [(0 * 64, 1024)] 0 r col) ∧
      ∀ j r col, j < 0 → -1024 ≤ elemAt [(0 * 64, 1024)] j r col ∧ elemAt [(0 * 64, 1024)] j r col ≤ 1023) := by
  refine ⟨fun b r col _ => ?_, ⟨by decide, ⟨0, 0, by decide⟩, fun j r col h => ?_⟩, ⟨0, 0, by decide⟩,
    fun j _ _ h => absurd h (Nat.not_lt_zero j)⟩
  · rw [elemAt_reset]
    decide
  · rw [elemAt_one _ _ _ _ _ h]
    decide

theorem witness_ZeroBlocksStayZero : (5399 : BitVec 16).toNat < 5400 ∧ Instr.inv2d 5399 ∈ blockCommands 5399 ∧
    ∀ r col, elemAt State.reset.grid (5399 : BitVec 16).toNat r col = 0 := ⟨by decide, by decide, elemAt_reset 5399⟩

theorem witness_GridFormIsItsBlocksInAnyOrder :
    (Instr.dqt, Instr.dqtG) ∈ [(Instr.fwd2d, Instr.fwd2dG), (Instr.qnt, Instr.qntG), (Instr.dqt, Instr.dqtG),
      (Instr.inv2d, Instr.inv2dG)] ∧ (List.range 5400).reverse.Perm (List.range 5400) ∧
    ∀ b r col, b < 5400 → -1024 ≤ elemAt State.reset.grid b r col ∧ elemAt State.reset.grid b r col ≤ 1023 :=
  ⟨by simp, List.reverse_perm _, witness_DqtGridResult.1⟩

/-- A wrong width, a wrong height; the right shape with `PIN` unwritten; the right shape with `PIN` written. -/
theorem witness_PartResult :
    (¬ ((ready Config.hw).withInW 719).inW.toNat = 720) ∧ (¬ ((ready Config.hw).withInH 481).inH.toNat = 480) ∧
    (let u := (ready Config.hw).withPin []
     u.inW.toNat = 720 ∧ u.inH.toNat = 480 ∧ 1036799 < 1036800 ∧ Memory.lookup u.pin 1036799 = none) ∧
    (ready Config.hw).inW.toNat = 720 ∧ (ready Config.hw).inH.toNat = 480 ∧
      (∀ a, a < 1036800 → Memory.lookup (ready Config.hw).pin a ≠ none) ∧
      Memory.lookup (ready Config.hw).pin (3 * (479 * 720 + 719) + 2) = some 0 := by
  refine ⟨by decide, by decide, ⟨rfl, rfl, by decide, rfl⟩, rfl, rfl, fun a ha => ?_, ?_⟩
  · rw [ready_pin Config.hw a ha]
    simp
  · exact ready_pin Config.hw _ (by rw [hw_pinSize]; decide)

theorem part_completes (c : Cfg) (s : State) (hs : shapeOk c s = true) (hp : pinWritten c s)
    (hf : faulted s = false) : ∃ t, partOn c s = .next t ∧ faulted t = false := by
  obtain ⟨g, hg⟩ := partGrid_of_pinWritten hp
  exact ⟨_, partOn_eq c s hs hg, hf⟩

theorem ready_withGrid (c : Cfg) (g : List (Nat × Elem)) (h : shapeOk c (ready c) = true) :
    shapeOk c ((ready c).withGrid g) = true ∧ pinWritten c ((ready c).withGrid g) ∧
      faulted ((ready c).withGrid g) = false :=
  ⟨h, fun a ha => by rw [State.withGrid_pin, ready_pin c a ha]; rfl, rfl⟩

/-- `PART` on the ready state, over the old grid `g`, gives a next state without a fault. -/
theorem part_ready (g : List (Nat × Elem)) :
    ∃ t, exec .part ((ready Config.hw).withGrid g) = .next t ∧ faulted t = false := by
  obtain ⟨h1, h2, h3⟩ := ready_withGrid Config.hw g ((shapeOk_iff _ _).2 ready_shape)
  rw [exec_part_on]
  exact part_completes Config.hw _ h1 h2 h3

theorem witness_PartForgetsTheOldGrid : ∃ s s' t t', s.pin = s'.pin ∧ s.grid ≠ s'.grid ∧ faulted t = false ∧
    faulted t' = false ∧ exec .part s = .next t ∧ exec .part s' = .next t' := by
  obtain ⟨t, h1, h2⟩ := part_ready []
  obtain ⟨t', h1', h2'⟩ := part_ready [(0, 1)]
  exact ⟨_, _, t, t', by rw [State.withGrid_pin, State.withGrid_pin], by simp, h2, h2', h1, h1'⟩

theorem witness_PartElementsAreLumaValues : ∃ s t, exec .part s = .next t ∧ s.inW.toNat = 720 ∧ s.inH.toNat = 480 ∧
    Memory.lookup s.pin (3 * (479 * 720 + 719)) = some 0 ∧ Memory.lookup s.pin (3 * (479 * 720 + 719) + 1) = some 0 ∧
    Memory.lookup s.pin (3 * (479 * 720 + 719) + 2) = some 0 := by
  obtain ⟨t, h, _⟩ := part_ready []
  refine ⟨_, t, h, rfl, rfl, ?_, ?_, ?_⟩ <;> exact ready_pin Config.hw _ (by rw [hw_pinSize]; decide)

/-- Straight after reset, and with an element below 0. -/
theorem witness_ReconOfNonPositiveGridIsBlack : (∀ e, e < 345600 → (gridRead State.reset.grid e).toInt ≤ 0) ∧
    ∀ e, e < 345600 → (gridRead [(7, -5)] e).toInt ≤ 0 := by
  refine ⟨fun e _ => by simp [State.reset], fun e _ => ?_⟩
  simp only [gridRead, Memory.lookup_cons]
  split
  · decide
  · exact Int.le_refl 0

/-- The review's case, 511 over a scale of 2: it lies outside one rounding of 255 * 2 in every format of the model, and
255 itself over a scale of 1 does not (40_partition_reconstruct.md R96 (d)). -/
theorem test_reconHigh : Config.reconHigh 11 2 ≤ 511 ∧ ¬ Config.reconHigh 11 1 ≤ 255 ∧
    Config.reconHigh 24 (81 / 4) ≤ 5164 := by
  simp only [Config.reconHigh, Config.oneRounding]
  norm_num

/-- The largest element, at the last pixel of `CFG16`, over the Scale Table's 81/4. -/
theorem witness_ReconOfHighElementsIsWhite : 15 < cfg16.frameW ∧ 7 < cfg16.frameH ∧ 2 < 3 ∧
    Config.reconHigh cfg16.floatBits (cfg16.scale (lane 15) (lane 7)) ≤
      ((gridRead [(127, (32767 : Elem))] ((15 / 8 + 7 / 8 * cfg16.bpr) * 64 + 7 % 8 * 8 + 15 % 8)).toInt : Rat) := by
  refine ⟨by decide, by decide, by decide, ?_⟩
  · have h : (gridRead [(127, (32767 : Elem))] ((15 / 8 + 7 / 8 * cfg16.bpr) * 64 + 7 % 8 * 8 + 15 % 8)).toInt = 32767 := by
      decide
    rw [h]
    simp only [Config.reconHigh, Config.oneRounding, cfg16, exCfg]
    norm_num

/-- A Scale Table of all ones. -/
def ones : Cfg := exCfg 16 8 (by decide) (by decide) (by decide) (by decide) 1 (by norm_num)

theorem witness_PartThenReconIsLuma : (∀ ox oy, ones.scale ox oy = 1) ∧ (ready ones).inW.toNat = ones.frameW ∧
    (ready ones).inH.toNat = ones.frameH ∧ pinWritten ones (ready ones) ∧
    Memory.lookup (ready ones).pin (3 * (7 * 16 + 15)) = some 0 ∧
    Memory.lookup (ready ones).pin (3 * (7 * 16 + 15) + 1) = some 0 ∧
    Memory.lookup (ready ones).pin (3 * (7 * 16 + 15) + 2) = some 0 :=
  ⟨fun _ _ => rfl, rfl, rfl, fun a ha => by rw [ready_pin ones a ha]; rfl, ready_pin ones _ (by decide),
    ready_pin ones _ (by decide), ready_pin ones _ (by decide)⟩

theorem witness_RunIsTheSixCommands : (¬ ((ready Config.hw).withInW 719).inW.toNat = 720) ∧
    (ready Config.hw).inW.toNat = 720 ∧ (ready Config.hw).inH.toNat = 480 ∧
    ∀ a, a < 1036800 → Memory.lookup (ready Config.hw).pin a ≠ none :=
  ⟨by decide, rfl, rfl, witness_PartResult.2.2.2.2.2.1⟩

/-- `RUN` on a state with the frame's shape and every byte of `PIN` written completes, and leaves such a state. -/
theorem run_completes (c : Cfg) (s : State) (hs : shapeOk c s = true) (hp : pinWritten c s) (hf : faulted s = false) :
    ∃ t, runOn c s = .next t ∧ shapeOk c t = true ∧ pinWritten c t ∧ faulted t = false := by
  obtain ⟨g, hg⟩ := partGrid_of_pinWritten hp
  exact ⟨_, runOn_eq c s hs hg, hs, hp, hf⟩

theorem recon_completes (c : Cfg) (s : State) : ∃ t, reconOn c s = .next t := ⟨_, reconOn_eq c s⟩

theorem witness_RunAndReconAreRepeatable : (∃ s t u, faulted s = false ∧ faulted t = false ∧ exec .run s = .next t ∧
    exec .run t = .next u) ∧ ∃ s t u, exec .recon s = .next t ∧ exec .recon t = .next u := by
  constructor
  · obtain ⟨t, h1, h2, h3, h4⟩ := run_completes Config.hw (ready Config.hw) ((shapeOk_iff _ _).2 ready_shape)
      (fun a ha => by rw [ready_pin Config.hw a ha]; rfl) (ready_faulted Config.hw)
    obtain ⟨u, h5, _⟩ := run_completes Config.hw t h2 h3 h4
    exact ⟨_, t, u, ready_faulted Config.hw, h4, h1, h5⟩
  · obtain ⟨t, h1⟩ := recon_completes Config.hw State.reset
    obtain ⟨u, h2⟩ := recon_completes Config.hw t
    exact ⟨_, t, u, h1, h2⟩

theorem witness_DeclaredShapeIsCheckedFirst : State.reset.inW.toNat ≠ 720 ∧
    ((State.reset.withInW 720).withInH 481).inH.toNat ≠ 480 := by decide

theorem witness_UnwrittenBytes :
    (let u := (State.reset.withInW 720).withInH 480
     u.inW.toNat = 720 ∧ u.inH.toNat = 480 ∧ Memory.lookup u.pin 1036799 = none) ∧ 1036799 < 1036800 ∧
    Memory.lookup State.reset.pout 1036799 = none ∧ Memory.lookup State.reset.pin 0 = none := by decide

theorem witness_RaiseRecordsTheFault : faulted State.reset = false ∧ State.reset.status = 0 := ⟨rfl, rfl⟩

/-- The three ways a command ends: completed, `InputShape`, `ArithOverflow`. -/
theorem witness_CausesByCommand :
    (∃ t, Instr.recon.wf = true ∧ State.reset.status = 0 ∧ exec .recon State.reset = .next t) ∧
    (∃ t, Instr.part.wf = true ∧ State.reset.status = 0 ∧ exec .part State.reset = .next t) ∧
    ∃ t, (Instr.dqt 5399).wf = true ∧ (withBlock 5399 [[1024]]).status = 0 ∧
      exec (.dqt 5399) (withBlock 5399 [[1024]]) = .next t ∧ t.status = 0x21 := by
  refine ⟨?_, ⟨_, by decide, rfl, rfl⟩, ?_⟩
  · obtain ⟨t, h⟩ := recon_completes Config.hw State.reset
    exact ⟨t, by decide, rfl, h⟩
  · rw [exec_dqt_on, dqtOn_fault Config.hw _ (by decide) (by decide +kernel)]
    exact ⟨_, by decide, rfl, rfl, by decide +kernel⟩

theorem witness_FaultsAreStickyUntilReset : faulted (State.reset.withStatus 0x31) = true ∧
    HostAction.writePin 0 7 ≠ .reset ∧
    hostAct (.writePin 0 7) (State.reset.withStatus 0x31) = .next ((State.reset.withStatus 0x31).withPin [(0, 7)]) ∧
    hostAct (.writeReg 0x03 720) (State.reset.withStatus 0x31) = .next ((State.reset.withStatus 0x31).withInW 720) :=
  ⟨by decide, by decide, rfl, rfl⟩

/-- A step from a state of the invariant: an illegal word. -/
theorem witness_StepKeepsTheInvariant : ∃ t, Invariant (State.reset.withPending [.writeReg 0x00 0]) ∧
    step (State.reset.withPending [.writeReg 0x00 0]) = .next t :=
  ⟨_, ⟨memories_reset Config.hw, .inl ⟨rfl, rfl⟩⟩, by rw [step_cmd rfl]; rfl⟩

theorem witness_ResetPutsEveryValue : (State.reset.withPending [.reset, .readReg 1]).pending = [.reset, .readReg 1] := rfl

/-- `exec` answers a next state, completed and faulted: for `NoCommandWritesTheInputs`, `EachMemoryHasItsWriters`
and `PcStepsByOneUnlessFaulted`. -/
theorem witness_execNext : (∃ t, exec .recon State.reset = .next t) ∧ ∃ t, exec .run State.reset = .next t :=
  ⟨recon_completes Config.hw State.reset, _, rfl⟩

/-- A written byte at the last offset of `PIN` and of `POUT`. -/
theorem witness_MemoryPort : 1036799 < 1036800 ∧
    Memory.lookup (State.reset.withPin [(1036799, 7)]).pin 1036799 = some 7 ∧
    Memory.lookup (State.reset.withPout [(1036799, 7)]).pout 1036799 = some 7 := by decide

/-- The register numbers at the ends of each range of `RegisterPort`, and the offsets at the ends of `MemoryPort`. -/
theorem witness_ports : (5 ≤ 5 ∧ 5 < 0x10) ∧ (5 ≤ 0x0F ∧ 0x0F < 0x10) ∧ 0x20 ≤ 0x20 ∧ 0x18 ≤ 0x18 ∧
    1036799 < 1036800 ∧ 345599 < 345600 ∧ 1036800 ≤ 1036800 ∧ 345600 ≤ 345600 := by decide

theorem witness_ReadsHaveNoSideEffect : ∃ t u, hostAct (.readPin 0) State.reset = .next t ∧
    hostAct (.readPin 0) t = .next u := ⟨_, _, rfl, rfl⟩

/-! ### FWD1D and INV1D (95 section 3.4) -/

/-- V1D.11. -/
theorem test_fwd1d : gives (fwd1dOn cfg16 (withVec [100, -50, 25, -12, 6, -3, 1, 0]))
    (fun t => decide (vdOf t = [50, 63, 79, 88, 90, 97, 110, 97]) && decide (t.pc = 1)) = true := by decide +kernel

/-- V1D.22: the lowest failing output is 2, `VD` is unchanged. -/
theorem test_fwd1d_overflow : gives (fwd1dOn cfg16 (withVec [0, 0, 0, -134217728, 0, 0, 0, 0]))
    (fun t => decide (t.status = 0x21) && decide (t.finfo = 2) && decide (vdOf t = [0, 0, 0, 0, 0, 0, 0, 0])
      && decide (t.pc = 0)) = true := by decide +kernel

/-- V1D.14. -/
theorem test_inv1d : gives (inv1dOn cfg16 (withVec [768, -100, 50, 0, 0, 7, 0, -1]))
    (fun t => decide (vdOf t = [529, 494, 501, 508, 543, 612, 694, 722])) = true := by decide +kernel

/-- V1D.21. -/
theorem test_inv1d_overflow : gives (inv1dOn cfg16 (withVec [0, 134217728, 0, 0, 0, 0, 0, 0]))
    (fun t => decide (t.status = 0x21) && decide (t.finfo = 0)) = true := by decide +kernel

/-! ### FWD2D and INV2D (95 section 3.5) -/

/-- V2D.6: not symmetric, negative values floored. -/
theorem test_fwd2d_impulse : rowsOf (fwd2D (ofRows exRows) (blockOf [[], [], [0, 0, 0, 0, 0, 100]])) =
    [[56, -43, -29, 75, -57, -19, 75, -71], [42, -33, -22, 56, -43, -15, 56, -53],
     [-29, 21, 14, -38, 28, 9, -38, 35], [-75, 57, 38, -100, 75, 25, -100, 94]] ++
    [[-57, 42, 28, -75, 56, 18, -75, 70], [18, -15, -10, 25, -19, -7, 25, -24],
     [75, -57, -38, 100, -75, -25, 100, -94], [70, -54, -36, 93, -71, -24, 93, -89]] := by decide +kernel

/-- V2D.3: saturation is silent. -/
theorem test_fwd2d_saturates : gives (fwd2dOn cfg16 1 (withBlock 1 (List.replicate 8 (List.replicate 8 (-32768)))))
    (fun t => decide ((gridRead t.grid 64).toInt = -32768) && decide (t.status = 0)) = true := by decide +kernel

/-- V2D.13: columns first, then rows. -/
theorem test_inv2d_columns_first : rowsOf (inv2D (ofRows exRows) (blockOf [[0, 7], [0, 20]])) =
    [[25, 23, 14, 6, -7, -15, -24, -25], [24, 22, 13, 6, -6, -14, -23, -24],
     [16, 15, 9, 4, -4, -9, -15, -16], [10, 9, 5, 2, -3, -6, -10, -10]] ++
    [[0, 0, 0, 0, 0, 0, 0, 0], [-6, -6, -4, -2, 1, 3, 5, 6],
     [-14, -14, -8, -4, 3, 7, 13, 14], [-15, -15, -9, -4, 3, 8, 14, 15]] := by decide +kernel

/-- V2D.14, first and last row: saturation in the inverse. -/
theorem test_inv2d_saturates :
    (rowsOf (inv2D (ofRows exRows) (blockOf (List.replicate 8 (List.replicate 8 32767))))).map (fun r => r.take 4) =
    [[32767, -32768, 32767, -32768], [-32768, 32767, -32768, 12287], [32767, -32768, 32767, -11264],
     [-32768, 12288, -11264, 2048]] ++
    [[32767, -24575, 22526, -4096], [-23040, 6144, -5632, 1024], [32767, -12287, 11262, -2048],
     [23034, -6143, 5630, -1024]] := by decide +kernel

/-- P3b, block 1 after `FWD2D.G`, from block 1 after `PART`. -/
theorem test_fwd2dG : gives (fwd2dGOn cfg16 (withBlock 1
    ([[52, 55, 58, 61, 64, 67, 70, 73], [71, 74, 77, 80, 83, 86, 89, 92],
      [90, 93, 96, 99, 102, 105, 108, 111], [109, 112, 115, 117, 120, 123, 126, 129]] ++
     [[127, 130, 133, 136, 139, 142, 145, 148], [146, 149, 152, 155, 158, 161, 164, 167],
      [165, 168, 171, 174, 177, 180, 183, 186], [184, 187, 190, 193, 196, 199, 201, 204]])))
    (fun t => decide ((rowsOf (blockRead t.grid 1)).take 4 =
      [[4621, -243, -1, -36, -1, -14, 0, -18], [-1536, -2, 2, -1, -1, 0, 0, 0],
       [2, 0, -3, 1, 1, 0, 0, -1], [-201, -3, 1, -1, 0, 1, 0, -1]])) = true := by decide +kernel

/-- P3b, block 1 after `INV2D.G`, from block 1 after `DQT.G`. -/
theorem test_inv2dG : gives (inv2dGOn cfg16 (withBlock 1
    ([[4608, -256, -32, -64, -32, -32, 0, -32], [-1536, -32, 0, -32, -32, 0, 0, 0],
      [0, 0, -32, 0, 0, 0, 0, -32], [-224, -32, 0, -32, 0, 0, 0, -32]] ++
     [[-32, 0, -32, 0, -32, -32, 0, 0], [-96, 0, 0, -32, -32, -32, 0, 0],
      [0, 0, -32, 0, 0, 0, 0, -32], [-96, -32, -32, -32, 0, 0, 0, -32]])))
    (fun t => decide ((rowsOf (blockRead t.grid 1)).take 3 =
      [[579, 1156, 1189, 1287, 1177, 1444, 1328, 1485], [1532, 1474, 1607, 1618, 1677, 1730, 1920, 1915],
       [1684, 1899, 1996, 2098, 2052, 2169, 2190, 2265]])) = true := by decide +kernel

/-! ### QNT and DQT (95 section 3.6) -/

/-- Q3, Q4, Q9, Q12, Q14, Q19, Q20. -/
theorem test_qnt : gives (exec (.qnt 7) (withBlock 7 [[31, 32, -1, -33, -654, 32767, -32768]]))
    (fun t => decide ((rowsOf (blockRead t.grid 7)).take 1 = [[0, 1, -1, -2, -21, 1023, -1024, 0]])) = true := by
  decide +kernel

/-- A grid form acts on the last block too: 4608 becomes 144 (43_quantization.md R140, R141). -/
theorem test_qntG : gives (qntGOn cfg16 (withBlock 1 [[], [], [], [], [], [], [], [0, 0, 0, 0, 0, 0, 0, 4608]]))
    (fun t => decide (gridRead t.grid 127 = 144) && decide (t.grid.length = 1)) = true := by decide +kernel

/-- Q15, Q17 and the worked example of R142: both ends of the range fit. -/
theorem test_dqt : gives (exec (.dqt 7) (withBlock 7 [[1023, -1024, 144, -21]]))
    (fun t => decide ((rowsOf (blockRead t.grid 7)).take 1 = [[32736, -32768, 4608, -672, 0, 0, 0, 0]])) = true := by
  decide +kernel

/-- F6: one past the range faults and the block is unchanged. -/
theorem test_dqt_overflow : gives (exec (.dqt 7) (withBlock 7 [[1024]]))
    (fun t => decide (t.status = 0x21) && decide (t.finfo = 7) && decide (gridRead t.grid 448 = 1024)
      && decide (t.pc = 0)) = true := by decide +kernel

/-- P5: block 0 was dequantised before the fault at block 1, which is unchanged. -/
theorem test_dqtG_partial : gives (dqtGOn cfg16 ((withBlock 0 (List.replicate 8 (List.replicate 8 3))).withGrid
    (gridWrite (gridWrite (blockWrite [] 0 (blockOf (List.replicate 8 (List.replicate 8 3)))) 64 3) 100 2000)))
    (fun t => decide (t.status = 0x21) && decide (t.finfo = 1) && decide (gridRead t.grid 63 = 96)
      && decide (gridRead t.grid 64 = 3) && decide (gridRead t.grid 100 = 2000)) = true := by decide +kernel

/-! ### PART, RECON, RUN (95 sections 3.3, 3.7, P3b) -/

/-- The `PIN` of P3b, its left block as a frame of its own: R = 16*px, G = 32*py, B = 255 - 16*px. -/
def pinP3b : List Host.Cell :=
  ((List.range 64).map fun p =>
    [(3 * p, BitVec.ofNat 8 (16 * (p % 8))), (3 * p + 1, BitVec.ofNat 8 (32 * (p / 8))),
     (3 * p + 2, BitVec.ofNat 8 (255 - 16 * (p % 8)))]).flatten

/-- `CFG_EX` on an 8×8 frame. -/
def cfg8 : Cfg := exCfg 8 8 (by decide) (by decide) (by decide) (by decide) (81 / 4) (by norm_num)

/-- P3b after `PART`, block 0. -/
theorem test_part : gives (partOn cfg8 (((State.reset.withInW 8).withInH 8).withPin pinP3b))
    (fun t => decide (rowsOf (blockRead t.grid 0) =
      [[29, 32, 34, 37, 40, 43, 46, 49], [47, 50, 53, 56, 59, 62, 65, 68],
       [66, 69, 72, 75, 78, 81, 84, 87], [85, 88, 91, 94, 97, 100, 103, 106]] ++
      [[104, 107, 110, 113, 116, 119, 121, 124], [122, 125, 128, 131, 134, 137, 140, 143],
       [141, 144, 147, 150, 153, 156, 159, 162], [160, 163, 166, 169, 172, 175, 178, 181]])) = true := by
  decide +kernel

/-- F2: `IN_H` 481 is not the frame's; nothing else changes. -/
theorem test_part_shape : gives (exec .part ((State.reset.withInW 720).withInH 481))
    (fun t => decide (t.status = 0x11) && decide (t.finfo = 0x01E102D0) && decide (t.pc = 0)
      && decide (t.grid = [])) = true := by decide +kernel

/-- P3b, `RECON` of block 1 as a frame of its own: its first row gives 28, 57, 58, 63, 58, 71, 65, 73, three bytes
each. -/
theorem test_recon : gives (reconOn cfg8 (withBlock 0 [[579, 1156, 1189, 1287, 1177, 1444, 1328, 1485]]))
    (fun t => decide ((List.range 9).map (fun i => Memory.lookup t.pout i) =
      [some 28, some 28, some 28, some 57, some 57, some 57, some 58, some 58, some 58])
      && decide (Memory.lookup t.pout 21 = some 73) && decide (Memory.lookup t.pout 191 = some 0)) = true := by
  decide +kernel

/-- F3: a multiple of 8 that is not the frame size still faults. -/
theorem test_run_shape : gives (exec .run ((State.reset.withInW 712).withInH 480))
    (fun t => decide (t.status = 0x11) && decide (t.finfo = 0x01E002C8)) = true := by decide +kernel

/-- The 8×8 frame of T6: constant 128 in, `GRID` all 2592, `POUT` all 128 (44_pipeline.md R150). -/
theorem test_run_flat : gives (runOn cfg8 (((State.reset.withInW 8).withInH 8).withPin ((List.range 192).map fun a => (a, 128))))
    (fun t => decide (Memory.lookup t.pout 191 = some 128) && decide (gridRead t.grid 0 = 2592)
      && decide (t.pc = 1) && decide (t.status = 0)) = true := by decide +kernel

/-! ### The host's port and the step -/

/-- The state the step answers after the host does `a`. -/
def doing (a : HostAction) (s : State) (p : State → Bool) : Bool := gives (step (s.withPending [a])) p

/-- F4: the all-zero word. -/
theorem test_step_illegal : doing (.writeReg 0 0) State.reset
    (fun t => decide (t.status = 0x31) && decide (t.finfo = 0) && decide (t.pending = [])) = true := by decide +kernel

/-- F8: a later command is discarded, the first fault is kept. -/
theorem test_step_discarded : doing (.writeReg 0 0x02001518) (State.reset.withStatus 0x31)
    (fun t => decide (t = State.reset.withStatus 0x31)) = true := by decide +kernel

/-- F9: `RECON` does not check the declared shape. -/
theorem test_step_recon : doing (.writeReg 0 0x06000000) State.reset
    (fun t => decide (t.status = 0) && decide (t.pc = 1)) = true := by decide +kernel

/-- `IN_W` keeps the low half (10_state.md R29). -/
theorem test_write_inW : doing (.writeReg 3 0xABCD02D0) State.reset (fun t => decide (regValue 3 t = 0x000002D0))
    = true := by decide +kernel

/-- The ends of the register files, read-only `VD`, and numbers without a register (R26). -/
theorem test_registers : doing (.writeReg 0x17 5) State.reset (fun t => decide (regValue 0x17 t = 5)
      && decide (regValue 0x16 t = 0)) = true ∧
    doing (.writeReg 0x18 5) State.reset (fun t => decide (t = State.reset)) = true ∧
    doing (.writeReg 0x0F 5) State.reset (fun t => decide (t = State.reset)) = true ∧
    doing (.writeReg 0x20 5) State.reset (fun t => decide (t = State.reset)) = true ∧
    doing (.readReg 0x20) State.reset (fun t => decide (t.lastRead = some (.reg 0))) = true := by decide +kernel

/-- The host reads what it wrote; an element nothing has written reads 0 (20_memory.md R58, 10_state.md R37). -/
theorem test_reads : doing (.readPin 5) (State.reset.withPin [(5, 9)])
      (fun t => decide (t.lastRead = some (.byte 9))) = true ∧
    doing (.readPout 5) (State.reset.withPout [(5, 8)]) (fun t => decide (t.lastRead = some (.byte 8))) = true ∧
    doing (.readGrid 448) (withBlock 7 [[-3]]) (fun t => decide (t.lastRead = some (.elem (-3)))) = true ∧
    doing (.readGrid 345599) State.reset (fun t => decide (t.lastRead = some (.elem 0))) = true := by decide +kernel

/-- The last offset of `PIN` is there, the next is not (20_memory.md R56). -/
theorem test_pin_range : doing (.writePin 1036799 7) State.reset
      (fun t => decide (t.pin = [(1036799, 7)])) = true ∧
    step (State.reset.withPending [.writePin 1036800 7]) = .fault (.offsetOutOfRange .pin 1036800) :=
  ⟨by decide +kernel, rfl⟩

/-- Reset clears the fault and the memories, and makes the free values new ones (70_reset_and_hazards.md R181). -/
theorem test_reset : doing .reset ((State.reset.withStatus 0x31).withPin [(0, 1)])
    (fun t => decide (t = State.reset.withEpoch 1)) = true := by decide +kernel

/-- The mapping of 95 section 3.3 at pixel (100, 50) and at the last pixel. -/
theorem test_pixel_mapping : pixelOffset Config.hw 100 50 0 = 108300 ∧ pixelElem Config.hw 100 50 = 35348 ∧
    pixelOffset Config.hw 719 479 2 = 1036799 ∧ pixelElem Config.hw 719 479 = 345599 := by decide +kernel

end Sys2Proof.Tests
end

/-! ### The machine's state (spec 10_state.md): the register port, what commands write, the invariant -/

namespace Sys2Proof.Machine

open Sys2Proof.Claims

/-! #### The decoder answers well-formed commands only -/

theorem decodeWhole_eq_command {i j : Instr} {w : Word} (h : decodeWhole i w = .command j) : j = i := by
  unfold decodeWhole at h
  split at h
  · cases h
    rfl
  · cases h

theorem decodeBlock_eq_command {n : Nat} {single : BitVec 16 → Instr} {grid j : Instr} {w : Word}
    (h : decodeBlock n single grid w = .command j) : j = grid ∨ ∃ b, b.toNat < n ∧ j = single b := by
  unfold decodeBlock at h
  split at h
  · split at h
    · cases h
      exact .inl rfl
    · cases h
  · split at h
    · rename_i hb
      cases h
      exact .inr ⟨_, hb, rfl⟩
    · cases h

theorem wfOn_of_decodeWhole {n : Nat} {i j : Instr} {w : Word} (hi : i.wfOn n = true)
    (h : decodeWhole i w = .command j) : j.wfOn n = true :=
  decodeWhole_eq_command h ▸ hi

theorem wfOn_of_decodeBlock {n : Nat} {single : BitVec 16 → Instr} {grid j : Instr} {w : Word}
    (hs : ∀ b, b.toNat < n → (single b).wfOn n = true) (hg : grid.wfOn n = true)
    (h : decodeBlock n single grid w = .command j) : j.wfOn n = true := by
  obtain rfl | ⟨b, hb, rfl⟩ := decodeBlock_eq_command h
  · exact hg
  · exact hs b hb

/-- A block index that decodes is one of the grid (30_encoding.md R75 (e)). -/
theorem wfOn_of_decodeOn {n : Nat} {w : Word} {i : Instr} (h : decodeOn n w = .command i) : i.wfOn n = true := by
  unfold decodeOn at h
  split at h
  · cases h
  split at h
  · exact wfOn_of_decodeWhole (i := .part) rfl h
  split at h
  · exact wfOn_of_decodeBlock (single := .fwd2d) (fun _ => decide_eq_true) rfl h
  split at h
  · exact wfOn_of_decodeBlock (single := .qnt) (fun _ => decide_eq_true) rfl h
  split at h
  · exact wfOn_of_decodeBlock (single := .dqt) (fun _ => decide_eq_true) rfl h
  split at h
  · exact wfOn_of_decodeBlock (single := .inv2d) (fun _ => decide_eq_true) rfl h
  split at h
  · exact wfOn_of_decodeWhole (i := .recon) rfl h
  split at h
  · exact wfOn_of_decodeWhole (i := .run) rfl h
  split at h
  · exact wfOn_of_decodeWhole (i := .fwd1d) rfl h
  split at h
  · exact wfOn_of_decodeWhole (i := .inv1d) rfl h
  · cases h

/-! #### What the host's actions can answer -/

/-- Every answer of a `CMD` write (10_state.md R30): discarded, executed, or an illegal word. -/
theorem cmdWrite_cases {w : Word} {s t : State} (h : cmdWrite w s = .next t) :
    t = s ∨ faulted s = false ∧ ((∃ i, decode w = .command i ∧ exec i s = .next t) ∨
      ∃ r, decode w = .illegal r ∧ raise .illegalCommand w s = .next t) := by
  cases hf : faulted s with
  | true =>
    rw [cmdWrite_faulted hf] at h
    cases h
    exact .inl rfl
  | false =>
    refine .inr ⟨rfl, ?_⟩
    cases hd : decode w with
    | command i => exact .inl ⟨i, rfl, cmdWrite_command hf hd ▸ h⟩
    | illegal r => exact .inr ⟨r, rfl, cmdWrite_illegal hf hd ▸ h⟩

/-- What every action of the host keeps, but a `CMD` write and a reset: the fault record, `pc` and `VD` are as
before, and the memories are still canonical. -/
structure Accessed (c : Cfg) (s t : State) : Prop where
  status : t.status = s.status
  finfo : t.finfo = s.finfo
  pc : t.pc = s.pc
  vd : t.vd = s.vd
  pin : Memory.wf c.pinSize s.pin → Memory.wf c.pinSize t.pin
  pout : Memory.wf c.pinSize s.pout → Memory.wf c.pinSize t.pout
  grid : Memory.gridWf c.gridSize s.grid → Memory.gridWf c.gridSize t.grid

theorem accessed_withPending {c : Cfg} (s : State) (x : List HostAction) : Accessed c s (s.withPending x) :=
  ⟨rfl, rfl, rfl, rfl, id, id, id⟩

theorem writeReg_cases (c : Cfg) {n : Nat} {v : Word} {s t : State} (h : writeReg n v s = .next t) :
    n = 0x00 ∧ cmdWrite v s = .next t ∨ Accessed c s t := by
  unfold writeReg at h
  split at h
  · rename_i hn
    exact .inl ⟨hn, h⟩
  · right
    split_ifs at h <;> cases h <;> exact ⟨rfl, rfl, rfl, rfl, id, id, id⟩

theorem answer_accessed {c : Cfg} {d : HostData} {s t : State} (h : answer d s = .next t) : Accessed c s t := by
  cases h
  exact ⟨rfl, rfl, rfl, rfl, id, id, id⟩

/-- An access that answers a next state lies inside its space (20_memory.md R56). -/
theorem inSpace_next {size a : Nat} {sp : Space} {r : Result} {t : State} (h : inSpace size sp a r = .next t) :
    a < size ∧ r = .next t := by
  by_cases ha : a < size
  · exact ⟨ha, inSpace_ok ha sp r ▸ h⟩
  · rw [inSpace_fault ha] at h
    cases h

/-- Everything an action of the host can answer with a next state. -/
theorem hostActOn_cases {c : Cfg} {a : HostAction} {s t : State} (h : hostActOn c a s = .next t) :
    (∃ w, a = .writeReg 0x00 w ∧ cmdWrite w s = .next t) ∨ (a = .reset ∧ t = resetMachine s) ∨ Accessed c s t := by
  cases a with
  | writeReg n v =>
    obtain ⟨rfl, hw⟩ | ha := writeReg_cases c h
    · exact .inl ⟨v, rfl, hw⟩
    · exact .inr (.inr ha)
  | reset =>
    cases h
    exact .inr (.inl ⟨rfl, rfl⟩)
  | readReg n => exact .inr (.inr (answer_accessed h))
  | readPin o => exact .inr (.inr (answer_accessed (inSpace_next h).2))
  | readPout o => exact .inr (.inr (answer_accessed (inSpace_next h).2))
  | readGrid e => exact .inr (.inr (answer_accessed (inSpace_next h).2))
  | writePin o v =>
    obtain ⟨ho, ht⟩ := inSpace_next h
    cases ht
    exact .inr (.inr ⟨rfl, rfl, rfl, rfl, fun hm => Memory.wf_put v hm ho, id, id⟩)
  | writePout o v =>
    obtain ⟨ho, ht⟩ := inSpace_next h
    cases ht
    exact .inr (.inr ⟨rfl, rfl, rfl, rfl, id, fun hm => Memory.wf_put v hm ho, id⟩)
  | writeGrid e v =>
    obtain ⟨he, ht⟩ := inSpace_next h
    cases ht
    exact .inr (.inr ⟨rfl, rfl, rfl, rfl, id, id, fun hm => gridWf_gridWrite v hm he⟩)

/-! #### The fault record -/

/-- Without a fault the record is that of reset: every code of 60_exceptions.md R160 has `FAULT` 1. -/
theorem recordOk_unfaulted {s : State} (h : recordOk s) (hf : faulted s = false) : s.status = 0 := by
  obtain ⟨hs, _⟩ | ⟨hs, _⟩ | ⟨hs, _⟩ | ⟨hs, _⟩ := h
  · exact hs
  all_goals
    unfold faulted at hf
    rw [hs] at hf
    cases hf

/-- `IN_H ++ IN_W` of a shape that fails the check is not the frame's (60_exceptions.md R163). -/
theorem shapeWord_ne_frame {s : State} (h : shapeOk Config.hw s = false) :
    s.inH ++ s.inW ≠ BitVec.ofNat 16 Config.frameH ++ BitVec.ofNat 16 Config.frameW := by
  intro he
  obtain ⟨hh, hw⟩ := shapeWord_inj he
  have hok : shapeOk Config.hw s = true := by
    rw [shapeOk_iff, hh, hw]
    exact ⟨rfl, rfl⟩
  rw [hok] at h
  cases h

theorem isIllegal_of_decode {w : Word} {r : Illegal} (h : decode w = .illegal r) : isIllegal w = true := by
  simp [isIllegal, h]

/-- A fault of a well-formed command, raised from a `STATUS` of 0, is one the record allows. -/
theorem recordOk_of_causes {i : Instr} {s t : State} {f : HwFault} {info : Word} (hi : i.wf = true)
    (hc : Causes Config.hw i s f info) (hs : t.status = statusFaulted 0 (causeCode f)) (hf : t.finfo = info) :
    recordOk t := by
  rw [statusFaulted_zero] at hs
  subst hf
  cases f with
  | inputShape =>
    obtain ⟨_, hshape, hinfo⟩ := hc
    refine .inr (.inl ⟨hs, ?_⟩)
    rw [hinfo]
    exact shapeWord_ne_frame hshape
  | arithOverflow =>
    refine .inr (.inr (.inl ⟨hs, ?_⟩))
    obtain ⟨_, hlane⟩ | ⟨_, hblk⟩ := hc
    · rw [hw_nblk]
      omega
    · exact hblk
  | illegalCommand =>
    have hnot : i.wf = false := hc.2
    rw [hi] at hnot
    cases hnot

/-! #### The invariant, action by action -/

theorem invariant_reset : Invariant State.reset := ⟨memories_reset Config.hw, .inl ⟨rfl, rfl⟩⟩

theorem invariant_of_accessed {s t : State} (h : Accessed Config.hw s t) (hs : Invariant s) : Invariant t := by
  obtain ⟨⟨hpin, hpout, hgrid⟩, hrec⟩ := hs
  refine ⟨⟨h.pin hpin, h.pout hpout, h.grid hgrid⟩, ?_⟩
  unfold recordOk
  rw [h.status, h.finfo]
  exact hrec

theorem invariant_of_completed {i : Instr} {s t : State} (h : Completed Config.hw i s t) (hs : Invariant s) :
    Invariant t := by
  obtain ⟨⟨hpin, hpout, hgrid⟩, hrec⟩ := hs
  obtain ⟨vd, grid, pout, rfl, -, -, -, keepsGrid, keepsPout⟩ := h
  exact ⟨⟨hpin, keepsPout hpout, keepsGrid hgrid⟩, hrec⟩

theorem invariant_of_faulted {i : Instr} {s t : State} (h : Faulted Config.hw i s t) (hi : i.wf = true)
    (hz : s.status = 0) (hs : Invariant s) : Invariant t := by
  obtain ⟨⟨hpin, hpout, hgrid⟩, -⟩ := hs
  obtain ⟨f, info, grid, rfl, hc, -, keepsGrid⟩ := h
  exact ⟨⟨hpin, hpout, keepsGrid hgrid⟩, recordOk_of_causes hi hc (by simp [hz]) rfl⟩

theorem exec_keeps_invariant {i : Instr} {s t : State} (hi : i.wf = true) (hf : faulted s = false)
    (hs : Invariant s) (h : exec i s = .next t) : Invariant t := by
  obtain hc | hc := exec_cases h
  · exact invariant_of_completed hc hs
  · exact invariant_of_faulted hc hi (recordOk_unfaulted hs.2 hf) hs

theorem cmdWrite_keeps_invariant {w : Word} {s t : State} (hs : Invariant s) (h : cmdWrite w s = .next t) :
    Invariant t := by
  obtain rfl | ⟨hf, ⟨i, hd, he⟩ | ⟨r, hd, he⟩⟩ := cmdWrite_cases h
  · exact hs
  · exact exec_keeps_invariant (wfOn_of_decodeOn hd) hf hs he
  · have hz := recordOk_unfaulted hs.2 hf
    rw [raise_eq, hz, statusFaulted_zero] at he
    cases he
    exact ⟨hs.1, .inr (.inr (.inr ⟨rfl, isIllegal_of_decode hd⟩))⟩

theorem hostAct_keeps_invariant {a : HostAction} {s t : State} (hs : Invariant s) (h : hostAct a s = .next t) :
    Invariant t := by
  obtain ⟨w, _, hw⟩ | ⟨_, rfl⟩ | ha := hostActOn_cases h
  · exact cmdWrite_keeps_invariant hs hw
  · exact invariant_reset
  · exact invariant_of_accessed ha hs

/-- Settles O39: the host's next action, taken off its list, keeps the invariant. -/
theorem stepKeepsTheInvariant : Obligations.StepKeepsTheInvariant := by
  intro s t hs h
  unfold step nextAction at h
  split at h
  · cases h
    exact hs
  · exact hostAct_keeps_invariant (invariant_of_accessed (accessed_withPending s _) hs) h

/-- Settles O40: the canonical memories of reset, and a record without a fault. -/
theorem invariantHoldsAtReset : Obligations.InvariantHoldsAtReset := invariant_reset

/-! #### What a command leaves alone -/

/-- Settles O42: neither a completed nor a faulted command has an input or a field of the host among its updates. -/
theorem noCommandWritesTheInputs : Obligations.NoCommandWritesTheInputs := by
  intro i s t h
  obtain ⟨vd, grid, pout, rfl, -⟩ | ⟨f, info, grid, rfl, -⟩ := exec_cases h
  · exact ⟨rfl, rfl, rfl, rfl, rfl, rfl, rfl⟩
  · exact ⟨rfl, rfl, rfl, rfl, rfl, rfl, rfl⟩

/-- Settles O43: a completed command's writers are those of `Completed`; a fault writes `GRID` at most, in `DQT.G`. -/
theorem eachMemoryHasItsWriters : Obligations.EachMemoryHasItsWriters := by
  intro i s t h
  obtain ⟨vd, grid, pout, rfl, hvd, hpout, hgrid, -⟩ | ⟨f, info, grid, rfl, -, hgrid, -⟩ := exec_cases h
  · exact ⟨hvd, hpout, hgrid⟩
  · refine ⟨fun _ _ => rfl, fun _ _ => rfl, fun hi => hgrid ?_⟩
    rintro rfl
    simp at hi

/-- Settles O44: a completed command is one step of `pc`; a faulted one has written `FAULT` and kept `pc`. -/
theorem pcStepsByOneUnlessFaulted : Obligations.PcStepsByOneUnlessFaulted := by
  intro i s t h
  obtain ⟨vd, grid, pout, rfl, -⟩ | ⟨f, info, grid, rfl, -⟩ := exec_cases h
  · exact .inl ⟨rfl, rfl, rfl⟩
  · exact .inr ⟨rfl, faultBit_statusFaulted _ _⟩

/-! #### The register port (10_state.md R26) -/

@[simp] theorem regValue_cmd (s : State) : regValue 0x00 s = 0 := rfl

theorem regValue_vs (s : State) (i : Fin 8) : regValue (0x10 + i.val) s = s.vs[i.val] := by
  have hi := i.isLt
  simp (disch := omega) only [regValue, if_neg, if_pos]
  simp [Vector.getD]

theorem regValue_vd (s : State) (i : Fin 8) : regValue (0x18 + i.val) s = s.vd[i.val] := by
  have hi := i.isLt
  simp (disch := omega) only [regValue, if_neg, if_pos]
  simp [Vector.getD]

theorem regValue_unused (s : State) {n : Nat} (h : (5 ≤ n ∧ n < 0x10) ∨ 0x20 ≤ n) : regValue n s = 0 := by
  simp (disch := omega) only [regValue, if_neg]

theorem writeReg_ignored (s : State) (v : Word) {n : Nat}
    (h : n = 0x01 ∨ n = 0x02 ∨ (5 ≤ n ∧ n < 0x10) ∨ 0x18 ≤ n) : writeReg n v s = .next s := by
  simp (disch := omega) only [writeReg, if_neg]

theorem writeReg_inW (s : State) (v : Word) : writeReg 0x03 v s = .next (s.withInW (v.extractLsb' 0 16)) := rfl

theorem writeReg_inH (s : State) (v : Word) : writeReg 0x04 v s = .next (s.withInH (v.extractLsb' 0 16)) := rfl

theorem writeReg_vs (s : State) (v : Word) (i : Fin 8) :
    writeReg (0x10 + i.val) v s = .next (s.withVs (s.vs.setIfInBounds i.val v)) := by
  have hi := i.isLt
  simp (disch := omega) only [writeReg, if_neg, if_pos, Nat.add_sub_cancel_left]

/-- Settles O45: the register table, one lemma for each range of numbers. -/
theorem registerPort : Obligations.RegisterPort := by
  intro s v n i
  refine ⟨rfl, regValue_cmd s, rfl, rfl, ?_, ?_, regValue_vs s i, regValue_vd s i, regValue_unused s,
    writeReg_ignored s v, ⟨_, writeReg_inW s v, rfl, ?_⟩, ⟨_, writeReg_inH s v, rfl, ?_⟩,
    ⟨_, writeReg_vs s v i, rfl, fun j => ?_⟩⟩
  · exact BitVec.toNat_setWidth_of_le (by decide : 16 ≤ 32)
  · exact BitVec.toNat_setWidth_of_le (by decide : 16 ≤ 32)
  · simp [BitVec.extractLsb'_toNat]
  · simp [BitVec.extractLsb'_toNat]
  · rw [State.withVs_vs, Vector.getElem_setIfInBounds]
    simp only [Fin.ext_iff, eq_comm]

/-! #### A write of `CMD` -/

@[simp] theorem faulted_withPending (s : State) (x : List HostAction) : faulted (s.withPending x) = faulted s := rfl

theorem faultTaken_raise (f : HwFault) (info : Word) (s : State) :
    ∃ t, raise f info s = .next t ∧ faultTaken (causeCode f) info s t :=
  ⟨_, rfl, faultBit_statusFaulted _ _, causeOf_statusFaulted _ _, rfl, low_statusFaulted _ _,
    high_statusFaulted _ _, rfl⟩

/-- Settles O2: the three answers of `cmdWrite`, and the read of `CMD`. -/
theorem cmdWriteRunsTheDecodedCommand : Obligations.CmdWriteRunsTheDecodedCommand := by
  intro s w rest hp
  rw [step_cmd hp, ← faulted_withPending s rest]
  refine ⟨fun hf i hd => cmdWrite_command hf hd, fun hf r hd => ?_, fun hf => cmdWrite_faulted hf w, regValue_cmd s⟩
  rw [cmdWrite_illegal hf hd]
  exact faultTaken_raise .illegalCommand w _

theorem decode_of_decodeTableWord {nbits w : Nat} {i : Instr} (h : decodeTableWord nbits w = some i) :
    decode (tableWord nbits w) = .command i := by
  unfold decodeTableWord at h
  split at h
  · rename_i hd
    cases h
    exact hd
  · cases h

/-- Settles O3: the placed word is the head of the host's list, and taking it off gives the state back. -/
theorem placedWordIsWhatTheStepRuns : Obligations.PlacedWordIsWhatTheStepRuns := by
  intro s nbits w i hf hd
  have hstep : step (s.withFetchWord nbits w) = cmdWrite (tableWord nbits w) s := step_cmd rfl
  rw [hstep]
  exact cmdWrite_command hf (decode_of_decodeTableWord hd)

end Sys2Proof.Machine

/-! ### The memories (spec 20_memory.md): the host's port, and the order of the blocks -/

namespace Sys2Proof.Machine

open Sys2Proof.Claims

/-! #### Host reads (20_memory.md R55) -/

@[simp] theorem pinValue_withLastRead (a : Nat) (s : State) (x : Option HostData) :
    pinValue a (s.withLastRead x) = pinValue a s := rfl

@[simp] theorem poutValue_withLastRead (a : Nat) (s : State) (x : Option HostData) :
    poutValue a (s.withLastRead x) = poutValue a s := rfl

@[simp] theorem regValue_withLastRead (n : Nat) (s : State) (x : Option HostData) :
    regValue n (s.withLastRead x) = regValue n s := rfl

theorem pinValue_of_written {a : Nat} {s : State} {v : Byte} (h : Memory.lookup s.pin a = some v) :
    pinValue a s = v := by
  rw [pinValue, h, Option.getD_some]

theorem poutValue_of_written {a : Nat} {s : State} {v : Byte} (h : Memory.lookup s.pout a = some v) :
    poutValue a s = v := by
  rw [poutValue, h, Option.getD_some]

/-- A value that does not depend on the latest answer is answered the same again. -/
theorem answer_twice {value : State → HostData} (hv : ∀ s x, value (s.withLastRead x) = value s) {s t u : State}
    (ht : answer (value s) s = .next t) (hu : answer (value t) t = .next u) :
    t = s.withLastRead t.lastRead ∧ u = t := by
  cases ht
  rw [hv] at hu
  cases hu
  exact ⟨rfl, rfl⟩

/-- Settles O47: each kind of read answers a value that does not depend on the latest answer. -/
theorem readsHaveNoSideEffect : Obligations.ReadsHaveNoSideEffect := by
  rintro a s t u ⟨n, rfl | rfl | rfl | rfl⟩ ht hu
  · exact answer_twice (value := fun s => .reg (regValue n s)) (by simp) ht hu
  · exact answer_twice (value := fun s => .byte (pinValue n s)) (by simp) (inSpace_next ht).2 (inSpace_next hu).2
  · exact answer_twice (value := fun s => .byte (poutValue n s)) (by simp) (inSpace_next ht).2 (inSpace_next hu).2
  · exact answer_twice (value := fun s => .elem (gridRead s.grid n)) (by simp) (inSpace_next ht).2
      (inSpace_next hu).2

/-! #### The memory port (20_memory.md R50, R56) -/

/-- Settles O46: inside its space an access is its body, whose reads are those after a store; outside it stops. -/
theorem memoryPort : Obligations.MemoryPort := by
  intro s a v e
  refine ⟨fun ha => ⟨_, inSpace_ok ha _ _, rfl, fun b => ?_⟩, fun ha => ⟨_, inSpace_ok ha _ _, rfl, fun b => ?_⟩,
    fun ha => ⟨_, inSpace_ok ha _ _, rfl, fun b => ?_⟩, fun ha hv => ?_, fun ha hv => ?_,
    fun ha => inSpace_ok ha _ _, fun ha => ?_, fun ha => ?_⟩
  · rw [State.withPin_pin, Memory.lookup_put]
    simp only [eq_comm]
  · rw [State.withPout_pout, Memory.lookup_put]
    simp only [eq_comm]
  · rw [State.withGrid_grid, gridRead_gridWrite]
    simp only [eq_comm]
  · rw [← pinValue_of_written hv]
    exact inSpace_ok ha _ _
  · rw [← poutValue_of_written hv]
    exact inSpace_ok ha _ _
  · have hout : ¬ a < Config.hw.pinSize := Nat.not_lt.2 ha
    exact ⟨inSpace_fault hout _ _, inSpace_fault hout _ _, inSpace_fault hout _ _, inSpace_fault hout _ _⟩
  · have hout : ¬ a < Config.hw.gridSize := Nat.not_lt.2 ha
    exact ⟨inSpace_fault hout _ _, inSpace_fault hout _ _⟩

/-! #### The blocks of the grid one after another, in any order (20_memory.md R59) -/

theorem runAll_cons {i : Instr} {s t : State} (h : exec i s = .next t) (rest : List Instr) :
    runAll (i :: rest) s = runAll rest t := by
  rw [runAll, h]

/-- A block update of another block leaves the contents of this one. -/
theorem blockRead_blockUpdate_of_ne (f : Block → Block) (g : List (Nat × Elem)) {b b' : Nat} (h : b' ≠ b) :
    blockRead (blockUpdate f g b) b' = blockRead g b' := by
  rw [blockRead_blockUpdate, if_neg h]

/-- What a list of blocks, each once, leaves: its blocks are updated, each from its own old contents, the others
are as before. -/
theorem blockRead_foldl_blockUpdate (f : Block → Block) {order : List Nat} (hd : order.Nodup)
    (g : List (Nat × Elem)) (b : Nat) :
    blockRead (order.foldl (blockUpdate f) g) b = if b ∈ order then f (blockRead g b) else blockRead g b := by
  induction order generalizing g with
  | nil => simp
  | cons x rest ih =>
    obtain ⟨hx, hrest⟩ := List.nodup_cons.1 hd
    rw [List.foldl_cons, ih hrest]
    by_cases hb : b = x
    · subst hb
      rw [if_neg hx, if_pos List.mem_cons_self, blockRead_blockUpdate, if_pos rfl]
    · simp only [blockRead_blockUpdate_of_ne f g hb, List.mem_cons, hb, false_or]

/-- Every order of all the blocks leaves the grid that the grid iteration leaves. -/
theorem gridRead_gridUpdate_eq_foldl (f : Block → Block) {n : Nat} {order : List Nat}
    (hp : order.Perm (List.range n)) (g : List (Nat × Elem)) (e : Nat) :
    gridRead (gridUpdate f n g) e = gridRead (order.foldl (blockUpdate f) g) e := by
  have hd : order.Nodup := hp.nodup_iff.2 List.nodup_range
  rw [gridRead_eq_blockRead, gridRead_eq_blockRead (order.foldl _ g), blockRead_gridUpdate,
    blockRead_foldl_blockUpdate f hd]
  simp only [hp.mem_iff, List.mem_range]

/-- A block operation in its two forms on a grid of `n` blocks: where the blocks meet `ok`, the single form updates
its block by `f`, the grid form every block, and nothing else changes but `pc`. -/
structure BlockOperation (n : Nat) (ok : Block → Prop) (f : Block → Block) (single : BitVec 16 → Instr)
    (grid : Instr) : Prop where
  exec_single : ∀ (blk : BitVec 16) (s : State), blk.toNat < n → ok (blockRead s.grid blk.toNat) →
    exec (single blk) s = .next ((s.withGrid (blockUpdate f s.grid blk.toNat)).withPc (s.pc + 1))
  exec_grid : ∀ s : State, (∀ b, b < n → ok (blockRead s.grid b)) →
    exec grid s = .next ((s.withGrid (gridUpdate f n s.grid)).withPc (s.pc + 1))

theorem fwd2d_blockOperation :
    BlockOperation Config.hw.nblk (fun _ => True) (fwd2D Config.hw.matrix) .fwd2d .fwd2dG where
  exec_single _ s hb _ := fwd2dOn_eq Config.hw s hb
  exec_grid s _ := fwd2dGOn_eq Config.hw s

theorem qnt_blockOperation : BlockOperation Config.hw.nblk (fun _ => True) quantBlock .qnt .qntG where
  exec_single _ s hb _ := qntOn_eq Config.hw s hb
  exec_grid s _ := qntGOn_eq Config.hw s

theorem dqt_blockOperation :
    BlockOperation Config.hw.nblk (fun X => blockFits X = true) dequantBlock .dqt .dqtG where
  exec_single _ s hb hok := dqtOn_eq Config.hw s hb hok
  exec_grid s hok := dqtGOn_eq Config.hw s ((firstOverflow_eq_none _ _).2 hok)

theorem inv2d_blockOperation :
    BlockOperation Config.hw.nblk (fun _ => True) (inv2D Config.hw.matrix) .inv2d .inv2dG where
  exec_single _ s hb _ := inv2dOn_eq Config.hw s hb
  exec_grid s _ := inv2dGOn_eq Config.hw s

namespace BlockOperation

variable {n : Nat} {ok : Block → Prop} {f : Block → Block} {single : BitVec 16 → Instr} {grid : Instr}

/-- The single-block commands on a list of blocks, each once: no command changes what a later one reads, so all
run through. -/
theorem runAll_blocks (h : BlockOperation n ok f single grid) (hn : n ≤ 2 ^ 16) {order : List Nat}
    (hd : order.Nodup) {s : State} (hb : ∀ b ∈ order, b < n ∧ ok (blockRead s.grid b)) :
    runAll (order.map fun b => single (BitVec.ofNat 16 b)) s =
      .next ((s.withGrid (order.foldl (blockUpdate f) s.grid)).withPc (s.pc + order.length)) := by
  induction order generalizing s with
  | nil => rfl
  | cons x rest ih =>
    obtain ⟨hx, hrest⟩ := List.nodup_cons.1 hd
    obtain ⟨hxn, hxok⟩ := hb x List.mem_cons_self
    have hto : (BitVec.ofNat 16 x).toNat = x := by
      rw [BitVec.toNat_ofNat, Nat.mod_eq_of_lt (hxn.trans_le hn)]
    have hexec := h.exec_single (BitVec.ofNat 16 x) s (hto.symm ▸ hxn) (hto.symm ▸ hxok)
    rw [hto] at hexec
    rw [List.map_cons, runAll_cons hexec, ih hrest]
    · simp [Nat.add_right_comm, Nat.add_assoc]
    · intro b hmem
      obtain ⟨hbn, hbok⟩ := hb b (List.mem_cons_of_mem x hmem)
      refine ⟨hbn, ?_⟩
      have hne : b ≠ x := fun he => hx (he ▸ hmem)
      rw [State.withPc_grid, State.withGrid_grid, blockRead_blockUpdate_of_ne f s.grid hne]
      exact hbok

/-- Where nothing faults, the single-block commands in any order of the blocks and the grid form both run through
and leave the same grid. -/
theorem any_order (h : BlockOperation n ok f single grid) (hn : n ≤ 2 ^ 16) {order : List Nat}
    (hp : order.Perm (List.range n)) {s : State} (hok : ∀ b, b < n → ok (blockRead s.grid b)) :
    ∃ t u, runAll (order.map fun b => single (BitVec.ofNat 16 b)) s = .next t ∧ exec grid s = .next u ∧
      (∀ e, gridRead u.grid e = gridRead t.grid e) ∧ t.pc = s.pc + n ∧ u.pc = s.pc + 1 ∧
      u = (t.withGrid u.grid).withPc u.pc := by
  have hlen : order.length = n := by rw [hp.length_eq, List.length_range]
  have hlt : ∀ b ∈ order, b < n := fun b hb => List.mem_range.1 (hp.mem_iff.1 hb)
  refine ⟨_, _, h.runAll_blocks hn (hp.nodup_iff.2 List.nodup_range) fun b hb => ⟨hlt b hb, hok b (hlt b hb)⟩,
    h.exec_grid s hok, gridRead_gridUpdate_eq_foldl f hp s.grid, ?_, rfl, rfl⟩
  rw [State.withPc_pc, hlen]

end BlockOperation

theorem elemAt_eq_blockRead (g : List (Nat × Elem)) (b : Nat) (r col : Fin 8) :
    elemAt g b r col = (blockRead g b r col).toInt := rfl

theorem fitsDqt_iff (v : Elem) : fitsDqt v = true ↔ -1024 ≤ v.toInt ∧ v.toInt ≤ 1023 := by
  simp [fitsDqt]

/-- The premise of 43_quantization.md R142, in the elements of the block. -/
theorem blockFits_blockRead_iff (g : List (Nat × Elem)) (b : Nat) :
    blockFits (blockRead g b) = true ↔ ∀ r col, -1024 ≤ elemAt g b r col ∧ elemAt g b r col ≤ 1023 := by
  simp only [blockFits_iff, fitsDqt_iff, elemAt_eq_blockRead]

/-- Settles O24: each of the four is a block operation; only `DQT` asks something of the blocks. -/
theorem gridFormIsItsBlocksInAnyOrder : Obligations.GridFormIsItsBlocksInAnyOrder := by
  intro single grid hmem s order hp hfit
  have hn : Config.hw.nblk ≤ 2 ^ 16 := by rw [hw_nblk]; decide
  simp only [List.mem_cons, Prod.mk.injEq, List.not_mem_nil, or_false] at hmem
  obtain ⟨rfl, rfl⟩ | ⟨rfl, rfl⟩ | ⟨rfl, rfl⟩ | ⟨rfl, rfl⟩ := hmem
  · exact fwd2d_blockOperation.any_order hn hp fun _ _ => trivial
  · exact qnt_blockOperation.any_order hn hp fun _ _ => trivial
  · exact dqt_blockOperation.any_order hn hp fun b hb =>
      (blockFits_blockRead_iff s.grid b).2 fun r col => hfit rfl b r col hb
  · exact inv2d_blockOperation.any_order hn hp fun _ _ => trivial

end Sys2Proof.Machine

/-! ### The encoding (spec 30_encoding.md): decoder and encoder agree, the opcode map, the illegal words -/

namespace Sys2Proof.Machine

open Sys2Proof.Claims

/-! #### When the decoders of the two kinds of opcode answer a command (30_encoding.md R74, R75 (c) to (e)) -/

theorem decodeWhole_eq_command_iff {i j : Instr} {w : Word} :
    decodeWhole i w = .command j ↔ j = i ∧ gOf w = 0 ∧ blkOf w = 0 := by
  unfold decodeWhole
  split_ifs with h
  · rw [Decoded.command.injEq, and_iff_left h, eq_comm]
  · exact ⟨nofun, fun hj => absurd hj.2 h⟩

theorem decodeBlock_eq_command_iff {n : Nat} {single : BitVec 16 → Instr} {grid j : Instr} {w : Word} :
    decodeBlock n single grid w = .command j ↔
      gOf w = 1 ∧ blkOf w = 0 ∧ j = grid ∨ gOf w = 0 ∧ (blkOf w).toNat < n ∧ j = single (blkOf w) := by
  unfold decodeBlock
  obtain hg | hg := gOf_cases w
  · by_cases hb : (blkOf w).toNat < n <;> simp [hg, hb, eq_comm (a := j)]
  · by_cases hb : blkOf w = 0#16 <;> simp [hg, hb, eq_comm (a := j)]

/-! #### The opcode map, by opcode (30_encoding.md R73) -/

/-- The opcodes of the commands that take neither `G` nor `blk` (R74). -/
def wholeOpcodes : List Nat := [0x01, 0x06, 0x07, 0x10, 0x11]

/-- The opcodes of the block commands (R74). -/
def blockOpcodes : List Nat := [0x02, 0x03, 0x04, 0x05]

/-- All the opcodes of R73, in the order of `illegalFields`. -/
def opcodes : List Nat := [0x01, 0x02, 0x03, 0x04, 0x05, 0x06, 0x07, 0x10, 0x11]

/-- `op` is the opcode of the one command `i`, for the encoder and for the decoder. -/
structure WholeOpcode (op : BitVec 8) (i : Instr) : Prop where
  mem : op.toNat ∈ wholeOpcodes
  encode_eq : encode i = commandWord op 0 0
  decodeOn_eq : ∀ n w, zeroOf w = 0 → opcodeOf w = op → decodeOn n w = decodeWhole i w

/-- `op` is the opcode of a block command in its two forms, for the encoder and for the decoder. -/
structure BlockOpcode (op : BitVec 8) (single : BitVec 16 → Instr) (grid : Instr) : Prop where
  mem : op.toNat ∈ blockOpcodes
  encode_single : ∀ b, encode (single b) = commandWord op 0 b
  encode_grid : encode grid = commandWord op 1 0
  wfOn_single : ∀ n b, (single b).wfOn n = decide (b.toNat < n)
  decodeOn_eq : ∀ n w, zeroOf w = 0 → opcodeOf w = op → decodeOn n w = decodeBlock n single grid w

theorem part_opcode : WholeOpcode 0x01 .part := ⟨by decide, rfl, fun _ _ hz ho => by simp [decodeOn, hz, ho]⟩
theorem recon_opcode : WholeOpcode 0x06 .recon := ⟨by decide, rfl, fun _ _ hz ho => by simp [decodeOn, hz, ho]⟩
theorem run_opcode : WholeOpcode 0x07 .run := ⟨by decide, rfl, fun _ _ hz ho => by simp [decodeOn, hz, ho]⟩
theorem fwd1d_opcode : WholeOpcode 0x10 .fwd1d := ⟨by decide, rfl, fun _ _ hz ho => by simp [decodeOn, hz, ho]⟩
theorem inv1d_opcode : WholeOpcode 0x11 .inv1d := ⟨by decide, rfl, fun _ _ hz ho => by simp [decodeOn, hz, ho]⟩

theorem fwd2d_opcode : BlockOpcode 0x02 .fwd2d .fwd2dG :=
  ⟨by decide, fun _ => rfl, rfl, fun _ _ => rfl, fun _ _ hz ho => by simp [decodeOn, hz, ho]⟩
theorem qnt_opcode : BlockOpcode 0x03 .qnt .qntG :=
  ⟨by decide, fun _ => rfl, rfl, fun _ _ => rfl, fun _ _ hz ho => by simp [decodeOn, hz, ho]⟩
theorem dqt_opcode : BlockOpcode 0x04 .dqt .dqtG :=
  ⟨by decide, fun _ => rfl, rfl, fun _ _ => rfl, fun _ _ hz ho => by simp [decodeOn, hz, ho]⟩
theorem inv2d_opcode : BlockOpcode 0x05 .inv2d .inv2dG :=
  ⟨by decide, fun _ => rfl, rfl, fun _ _ => rfl, fun _ _ hz ho => by simp [decodeOn, hz, ho]⟩

/-- Every opcode of the map belongs to one command or to a block command's two forms. -/
theorem opcode_cases (op : BitVec 8) :
    (∃ i, WholeOpcode op i) ∨ (∃ single grid, BlockOpcode op single grid) ∨ op.toNat ∉ opcodes := by
  by_cases h : op.toNat ∈ opcodes
  · have hop : op ∈ ([0x01, 0x02, 0x03, 0x04, 0x05, 0x06, 0x07, 0x10, 0x11] : List (BitVec 8)) := by
      simpa [opcodes, ← BitVec.toNat_inj] using h
    simp only [List.mem_cons, List.not_mem_nil, or_false] at hop
    obtain rfl | rfl | rfl | rfl | rfl | rfl | rfl | rfl | rfl := hop
    · exact .inl ⟨_, part_opcode⟩
    · exact .inr (.inl ⟨_, _, fwd2d_opcode⟩)
    · exact .inr (.inl ⟨_, _, qnt_opcode⟩)
    · exact .inr (.inl ⟨_, _, dqt_opcode⟩)
    · exact .inr (.inl ⟨_, _, inv2d_opcode⟩)
    · exact .inl ⟨_, recon_opcode⟩
    · exact .inl ⟨_, run_opcode⟩
    · exact .inl ⟨_, fwd1d_opcode⟩
    · exact .inl ⟨_, inv1d_opcode⟩
  · exact .inr (.inr h)

theorem decodeOn_of_zeroOf_ne {n : Nat} {w : Word} (h : zeroOf w ≠ 0) : decodeOn n w = .illegal .zeroField :=
  if_pos h

theorem decodeOn_of_opcode_unknown {n : Nat} {w : Word} (hz : zeroOf w = 0) (h : (opcodeOf w).toNat ∉ opcodes) :
    decodeOn n w = .illegal .opcode := by
  simp only [opcodes, List.mem_cons, List.not_mem_nil, or_false, not_or] at h
  simp [decodeOn, hz, ← BitVec.toNat_inj, h]

/-! #### Decoding the word of a command (30_encoding.md R79) -/

theorem WholeOpcode.decodeOn_encode {op : BitVec 8} {i : Instr} (h : WholeOpcode op i) (n : Nat) :
    decodeOn n (encode i) = .command i := by
  rw [h.encode_eq, h.decodeOn_eq n _ (zeroOf_commandWord ..) (opcodeOf_commandWord ..), decodeWhole_eq_command_iff]
  exact ⟨rfl, gOf_commandWord .., blkOf_commandWord ..⟩

namespace BlockOpcode

variable {op : BitVec 8} {single : BitVec 16 → Instr} {grid : Instr}

theorem decodeOn_encode_grid (h : BlockOpcode op single grid) (n : Nat) :
    decodeOn n (encode grid) = .command grid := by
  rw [h.encode_grid, h.decodeOn_eq n _ (zeroOf_commandWord ..) (opcodeOf_commandWord ..), decodeBlock_eq_command_iff]
  exact .inl ⟨gOf_commandWord .., blkOf_commandWord .., rfl⟩

theorem decodeOn_encode_single (h : BlockOpcode op single grid) {n : Nat} {b : BitVec 16}
    (hb : (single b).wfOn n = true) : decodeOn n (encode (single b)) = .command (single b) := by
  rw [h.wfOn_single, decide_eq_true_iff] at hb
  rw [h.encode_single, h.decodeOn_eq n _ (zeroOf_commandWord ..) (opcodeOf_commandWord ..),
    decodeBlock_eq_command_iff, gOf_commandWord, blkOf_commandWord]
  exact .inr ⟨rfl, hb, rfl⟩

end BlockOpcode

theorem decodeOn_encode {n : Nat} {i : Instr} (h : i.wfOn n = true) : decodeOn n (encode i) = .command i := by
  cases i with
  | part => exact part_opcode.decodeOn_encode n
  | fwd2d b => exact fwd2d_opcode.decodeOn_encode_single h
  | fwd2dG => exact fwd2d_opcode.decodeOn_encode_grid n
  | qnt b => exact qnt_opcode.decodeOn_encode_single h
  | qntG => exact qnt_opcode.decodeOn_encode_grid n
  | dqt b => exact dqt_opcode.decodeOn_encode_single h
  | dqtG => exact dqt_opcode.decodeOn_encode_grid n
  | inv2d b => exact inv2d_opcode.decodeOn_encode_single h
  | inv2dG => exact inv2d_opcode.decodeOn_encode_grid n
  | recon => exact recon_opcode.decodeOn_encode n
  | run => exact run_opcode.decodeOn_encode n
  | fwd1d => exact fwd1d_opcode.decodeOn_encode n
  | inv1d => exact inv1d_opcode.decodeOn_encode n

/-- Settles O5: command by command, the fields of the encoded word lead the decoder back to it. -/
theorem decodeOfEncode : Obligations.DecodeOfEncode := fun _ => decodeOn_encode

/-! #### A word that decodes is the word of its command -/

theorem encode_of_decodeOn {n : Nat} {w : Word} {i : Instr} (h : decodeOn n w = .command i) : encode i = w := by
  by_cases hz : zeroOf w = 0
  · have hw := commandWord_of_fields hz
    obtain ⟨j, hj⟩ | ⟨single, grid, hr⟩ | hunknown := opcode_cases (opcodeOf w)
    · rw [hj.decodeOn_eq n w hz rfl, decodeWhole_eq_command_iff] at h
      obtain ⟨rfl, hg, hb⟩ := h
      rw [hj.encode_eq, ← hg, ← hb, hw]
    · rw [hr.decodeOn_eq n w hz rfl, decodeBlock_eq_command_iff] at h
      obtain ⟨hg, hb, rfl⟩ | ⟨hg, -, rfl⟩ := h
      · rw [hr.encode_grid, ← hg, ← hb, hw]
      · rw [hr.encode_single, ← hg, hw]
    · rw [decodeOn_of_opcode_unknown hz hunknown] at h
      cases h
  · rw [decodeOn_of_zeroOf_ne hz] at h
    cases h

/-- Settles O6: the decoder reads every field of the word, and a block index only below the grid's size. -/
theorem encodeOfDecode : Obligations.EncodeOfDecode := fun _ _ h => ⟨encode_of_decodeOn h, wfOn_of_decodeOn h⟩

theorem decode_eq_command_iff {w : Word} {i : Instr} : decode w = .command i ↔ encode i = w ∧ i.wf = true := by
  refine ⟨encodeOfDecode w i, ?_⟩
  rintro ⟨rfl, hi⟩
  exact decodeOfEncode i hi

/-! #### Match and mask (30_encoding.md R73) -/

theorem append_setWidth_eq (w : Word) : w.extractLsb' 16 16 ++ w.setWidth 16 = w := by
  rw [BitVec.setWidth_eq_extractLsb' (by decide)]
  exact (BitVec.extractLsb'_append_extractLsb'_eq_extractLsb' (by decide)).trans BitVec.extractLsb'_eq_self

/-- A word is the one with the halves `x` and `b` when it matches `x` under the mask of the high half and its low
half is `b`. -/
theorem append_eq_iff_mask (x b : BitVec 16) (w : Word) :
    x ++ b = w ↔ w &&& 0xFFFF0000#32 = x ++ 0#16 ∧ b = w.setWidth 16 := by
  have hmask : w &&& 0xFFFF0000#32 = w.extractLsb' 16 16 ++ 0#16 := by
    calc w &&& 0xFFFF0000#32
        = (w.extractLsb' 16 16 ++ w.setWidth 16) &&& (BitVec.allOnes 16 ++ 0#16) := by
          rw [append_setWidth_eq]; rfl
      _ = w.extractLsb' 16 16 ++ 0#16 := by
          rw [BitVec.and_append, BitVec.and_allOnes, BitVec.and_zero]
  rw [hmask]
  constructor
  · intro h
    obtain ⟨hx, hb⟩ := shapeWord_inj (h.trans (append_setWidth_eq w).symm)
    exact ⟨by rw [hx], hb⟩
  · rintro ⟨hx, rfl⟩
    rw [← (shapeWord_inj hx).1, append_setWidth_eq]

theorem wholeRow_of_encode {i : Instr} {m : Word} (he : encode i = m) (hi : i.wf = true) (w : Word) :
    wholeRow i m w := by
  have hones : w &&& 0xFFFFFFFF#32 = w := BitVec.and_allOnes
  unfold wholeRow
  rw [decode_eq_command_iff, hones, he, eq_comm]
  exact and_iff_left hi

theorem BlockOpcode.blockRow_commandWord {op : BitVec 8} {single : BitVec 16 → Instr} {grid : Instr}
    (h : BlockOpcode op single grid) (w : Word) : blockRow single (commandWord op 0 0) w := by
  intro b
  have hwf : (single b).wf = true ↔ b.toNat < 5400 := by
    rw [Instr.wf, h.wfOn_single, decide_eq_true_iff, hw_nblk]
  rw [decode_eq_command_iff, hwf, h.encode_single, ← and_assoc]
  exact and_congr_left fun _ => append_eq_iff_mask (op ++ 0#7 ++ 0#1) b w

/-- Settles O7: a row without an operand is its one word, a row with an operand the words of its high half. -/
theorem commandTableMatchAndMask : Obligations.CommandTableMatchAndMask := fun w =>
  ⟨wholeRow_of_encode rfl rfl w, fwd2d_opcode.blockRow_commandWord w, wholeRow_of_encode rfl rfl w,
    qnt_opcode.blockRow_commandWord w, wholeRow_of_encode rfl rfl w, dqt_opcode.blockRow_commandWord w,
    wholeRow_of_encode rfl rfl w, inv2d_opcode.blockRow_commandWord w, wholeRow_of_encode rfl rfl w,
    wholeRow_of_encode rfl rfl w, wholeRow_of_encode rfl rfl w, wholeRow_of_encode rfl rfl w,
    wholeRow_of_encode rfl rfl w⟩

/-! #### The illegal words (30_encoding.md R75) -/

theorem opcodeOf_toNat (w : Word) : (opcodeOf w).toNat = w.toNat / 2 ^ 24 := by
  have hw := w.isLt
  rw [opcodeOf, BitVec.extractLsb'_toNat, Nat.shiftRight_eq_div_pow]
  omega

theorem zeroOf_toNat (w : Word) : (zeroOf w).toNat = w.toNat / 2 ^ 17 % 2 ^ 7 := by
  rw [zeroOf, BitVec.extractLsb'_toNat, Nat.shiftRight_eq_div_pow]

theorem gOf_toNat (w : Word) : (gOf w).toNat = w.toNat / 2 ^ 16 % 2 := by
  rw [gOf, BitVec.extractLsb'_toNat, Nat.shiftRight_eq_div_pow]

theorem blkOf_toNat (w : Word) : (blkOf w).toNat = w.toNat % 2 ^ 16 := by
  rw [blkOf, BitVec.extractLsb'_toNat, Nat.shiftRight_zero]

theorem illegalShape_iff (w : Word) : illegalShape w ↔
    illegalFields (opcodeOf w).toNat (zeroOf w).toNat (gOf w).toNat (blkOf w).toNat := by
  rw [illegalShape, opcodeOf_toNat, zeroOf_toNat, gOf_toNat, blkOf_toNat]

theorem illegalFields_of_whole {op z g blk : Nat} (h : op ∈ wholeOpcodes) :
    illegalFields op z g blk ↔ z ≠ 0 ∨ g = 1 ∨ blk ≠ 0 := by
  simp only [wholeOpcodes, List.mem_cons, List.not_mem_nil, or_false] at h
  obtain rfl | rfl | rfl | rfl | rfl := h <;> simp [illegalFields]

theorem illegalFields_of_block {op z g blk : Nat} (h : op ∈ blockOpcodes) :
    illegalFields op z g blk ↔ z ≠ 0 ∨ (g = 1 ∧ blk ≠ 0) ∨ (g = 0 ∧ 5400 ≤ blk) := by
  simp only [blockOpcodes, List.mem_cons, List.not_mem_nil, or_false] at h
  obtain rfl | rfl | rfl | rfl := h <;> simp [illegalFields]

/-- The words that decode are those of none of the kinds (a) to (e). -/
theorem exists_decode_iff (w : Word) : (∃ i, decode w = .command i) ↔ ¬ illegalShape w := by
  rw [illegalShape_iff]
  by_cases hz : zeroOf w = 0
  · have hz0 : (zeroOf w).toNat = 0 := by rw [hz]; rfl
    obtain ⟨j, hj⟩ | ⟨single, grid, hr⟩ | hunknown := opcode_cases (opcodeOf w)
    · rw [illegalFields_of_whole hj.mem, decode, hj.decodeOn_eq _ w hz rfl]
      obtain hg | hg := gOf_cases w <;> simp [decodeWhole_eq_command_iff, hz0, hg, ← BitVec.toNat_inj]
    · rw [illegalFields_of_block hr.mem, decode, hr.decodeOn_eq _ w hz rfl]
      obtain hg | hg := gOf_cases w <;>
        simp [decodeBlock_eq_command_iff, hw_nblk, hz0, hg, ← BitVec.toNat_inj]
    · rw [decode, decodeOn_of_opcode_unknown hz hunknown]
      simp [show illegalFields _ _ _ _ from .inl hunknown]
  · have hz0 : (zeroOf w).toNat ≠ 0 := fun h => hz (BitVec.eq_of_toNat_eq h)
    rw [decode, decodeOn_of_zeroOf_ne hz]
    simp [show illegalFields _ _ _ _ from .inr (.inl hz0)]

/-- Settles O8: the decoder refuses a word of the kinds (a) to (e), so that a write of it to `CMD` takes the fault. -/
theorem illegalWordsFaultAndNoOthers : Obligations.IllegalWordsFaultAndNoOthers := by
  refine fun w => ⟨fun hill => ?_, (exists_decode_iff w).2⟩
  cases hd : decode w with
  | command i => exact absurd hill ((exists_decode_iff w).1 ⟨i, hd⟩)
  | illegal r =>
    refine ⟨isIllegal_of_decode hd, fun s rest hp hf => ?_⟩
    obtain ⟨-, hfault, -⟩ := cmdWriteRunsTheDecodedCommand s w rest hp
    exact hfault hf r hd

/-- Settles O4: twelve closed words, evaluated. -/
theorem decoderVectors : Obligations.DecoderVectors := by
  unfold Obligations.DecoderVectors
  decide

end Sys2Proof.Machine

/-! ### Partition and reconstruction (spec 40_partition_reconstruct.md): what `PART` and `RECON` leave, pixel by pixel.
Each lemma is over a variable configuration; an obligation about `exec` is its instance at `Config.hw`. -/

namespace Sys2Proof.Machine

open Sys2Proof.Claims

variable {c : Cfg} {s t : State} {px py : Nat}

/-! #### `PART` -/

theorem shapeOk_eq_false_iff : shapeOk c s = false ↔ ¬ (s.inW.toNat = c.frameW ∧ s.inH.toNat = c.frameH) := by
  rw [← shapeOk_iff, Bool.not_eq_true]

theorem pixelLuma_of_bytes {pin : List Host.Cell} {r g b : Byte}
    (hr : Memory.lookup pin (pixelOffset c px py 0) = some r)
    (hg : Memory.lookup pin (pixelOffset c px py 1) = some g)
    (hb : Memory.lookup pin (pixelOffset c px py 2) = some b) : pixelLuma c pin px py = some (c.luma r g b) := by
  simp [pixelLuma, hr, hg, hb]

/-- A `PART` with the right shape that answers a next state has stored a partitioned grid, and only that. -/
theorem partOn_next (hs : shapeOk c s = true) (h : partOn c s = .next t) :
    ∃ grid, partGrid c s.pin s.grid = some grid ∧ t = (s.withGrid grid).withPc (s.pc + 1) := by
  cases hg : partGrid c s.pin s.grid with
  | none =>
    rw [partOn_unwritten c s hs hg] at h
    cases h
  | some grid =>
    rw [partOn_eq c s hs hg] at h
    cases h
    exact ⟨grid, rfl, rfl⟩

/-- A `PART` that has not faulted had the right shape (60_exceptions.md R163). -/
theorem shapeOk_of_partOn_unfaulted (h : partOn c s = .next t) (ht : faulted t = false) : shapeOk c s = true := by
  by_contra hs
  rw [partOn_shape c s (Bool.eq_false_of_not_eq_true hs)] at h
  obtain ⟨u, hu, hfault, -⟩ := faultTaken_raise .inputShape (s.inH ++ s.inW) s
  rw [h] at hu
  cases hu
  rw [(faulted_iff t).2 hfault] at ht
  cases ht

/-- R93: the element of a pixel is the luma of its three bytes. -/
theorem gridRead_partGrid {pin : List Host.Cell} {old grid : List (Nat × Elem)} {r g b : Byte}
    (h : partGrid c pin old = some grid) (hx : px < c.frameW) (hy : py < c.frameH)
    (hr : Memory.lookup pin (pixelOffset c px py 0) = some r)
    (hg : Memory.lookup pin (pixelOffset c px py 1) = some g)
    (hb : Memory.lookup pin (pixelOffset c px py 2) = some b) :
    gridRead grid (pixelElem c px py) = c.luma r g b := by
  have hluma := (partGrid_some h).1 px py hx hy
  rw [pixelLuma_of_bytes hr hg hb] at hluma
  exact (Option.some.inj hluma).symm

/-- R93: every element belongs to a pixel, and a pixel's luma does not depend on the old grid. -/
theorem partGrid_forgets {pin : List Host.Cell} {old old' grid grid' : List (Nat × Elem)} {e : Nat}
    (h : partGrid c pin old = some grid) (h' : partGrid c pin old' = some grid') (he : e < c.gridSize) :
    gridRead grid e = gridRead grid' e := by
  obtain ⟨px, py, hx, hy, rfl⟩ := exists_pixel he
  have hluma := (partGrid_some h).1 px py hx hy
  rw [(partGrid_some h').1 px py hx hy] at hluma
  exact (Option.some.inj hluma).symm

/-- Settles O25: the three answers of `partOn`, and the grid of the last one pixel by pixel. -/
theorem partResult : Obligations.PartResult := by
  intro s
  refine ⟨fun hshape => ?_, fun hw hh ⟨a, ha, hnone⟩ => ?_, fun hw hh hpin => ?_⟩
  · rw [exec_part_on, partOn_shape Config.hw s (shapeOk_eq_false_iff.2 hshape)]
    exact faultTaken_raise .inputShape _ s
  · exact partOn_unwritten Config.hw s ((shapeOk_iff _ _).2 ⟨hw, hh⟩) (partGrid_of_not_pinWritten ha hnone)
  · have hwritten : pinWritten Config.hw s := fun a ha => Option.isSome_iff_ne_none.2 (hpin a ha)
    obtain ⟨grid, hgrid⟩ := partGrid_of_pinWritten hwritten
    exact ⟨_, partOn_eq Config.hw s ((shapeOk_iff _ _).2 ⟨hw, hh⟩) hgrid, rfl, (partGrid_some hgrid).2,
      fun px py r g b hx hy => gridRead_partGrid hgrid hx hy, fun e => exists_pixel (c := Config.hw)⟩

/-- Settles O26: both states have the right shape, so both grids are partitions of the one `PIN`. -/
theorem partForgetsTheOldGrid : Obligations.PartForgetsTheOldGrid := by
  intro s s' t t' hpin ht ht' h h' e he
  obtain ⟨grid, hgrid, rfl⟩ := partOn_next (shapeOk_of_partOn_unfaulted h ht) h
  obtain ⟨grid', hgrid', rfl⟩ := partOn_next (shapeOk_of_partOn_unfaulted h' ht') h'
  rw [hpin] at hgrid
  exact partGrid_forgets hgrid hgrid' he

/-! #### Values of `Luma` as elements (R92) -/

/-- R92 (b): a luma value is at most 255, so its signed and its unsigned reading agree. -/
theorem luma_toInt (c : Cfg) (r g b : Byte) : (c.luma r g b).toInt = (c.luma r g b).toNat := by
  have hle := c.luma_le r g b
  exact BitVec.toInt_eq_toNat_of_lt (by omega)

/-- R92 (c): the exact truncation of the weighted sum, or one less where the sum is an exact multiple of 1000. -/
theorem luma_cases (c : Cfg) (r g b : Byte) :
    (c.luma r g b).toNat = Config.weightedSum r g b / 1000 ∨
      Config.weightedSum r g b = 1000 * ((c.luma r g b).toNat + 1) := by
  obtain htrunc | ⟨hmod, hone⟩ := c.luma_near r g b
  · exact .inl htrunc
  · exact .inr (by omega)

/-- Settles O27: the pixel's element is a luma value, and R92 bounds it. -/
theorem partElementsAreLumaValues : Obligations.PartElementsAreLumaValues := by
  intro s t h hw hh px py r g b hx hy hr hg hb
  obtain ⟨grid, hgrid, rfl⟩ := partOn_next ((shapeOk_iff Config.hw s).2 ⟨hw, hh⟩) h
  refine ⟨(Config.hw.luma r g b).toNat, ?_, Config.hw.luma_le r g b, luma_cases Config.hw r g b⟩
  calc elemAt grid (px / 8 + py / 8 * 90) (lane py) (lane px)
      = (gridRead grid (pixelElem Config.hw px py)).toInt := rfl
    _ = (Config.hw.luma r g b).toInt := by rw [gridRead_partGrid (c := Config.hw) hgrid hx hy hr hg hb]
    _ = (Config.hw.luma r g b).toNat := luma_toInt Config.hw r g b

/-! #### `RECON` -/

/-- R95: `RECON` completes, and stores `reconPout` and only that. -/
theorem reconOn_next (c : Cfg) (s : State) :
    ∃ t, reconOn c s = .next t ∧ onlyPout s t ∧ t.pout = reconPout c s.grid s.pout :=
  ⟨_, reconOn_eq c s, rfl, rfl⟩

/-- R95: each byte of a pixel is the pixel's output value. -/
theorem lookup_reconPout_pixel {ch : Nat} (grid : List (Nat × Elem)) (pout : List Host.Cell) (hx : px < c.frameW)
    (hy : py < c.frameH) (hch : ch < 3) :
    Memory.lookup (reconPout c grid pout) (pixelOffset c px py ch) = some (pixelOut c grid px py) := by
  obtain ⟨-, hmod, hdiv⟩ := index_of_pixel hx hy
  have hindex : pixelOffset c px py ch / 3 = py * c.frameW + px := by
    simp only [pixelOffset, Config.nch]
    omega
  rw [lookup_reconPout, if_pos (pixelOffset_lt hx hy hch), hindex, hmod, hdiv]

/-- Settles O28: every byte of `POUT` is written, from its pixel's element. -/
theorem reconResult : Obligations.ReconResult := by
  intro s
  obtain ⟨t, ht, honly, hpout⟩ := reconOn_next Config.hw s
  refine ⟨t, ht, honly, fun a ha => ?_, fun px py ch hx hy hch => ?_⟩
  · have hout : ¬ a < Config.hw.pinSize := Nat.not_lt.2 ha
    rw [hpout, lookup_reconPout, if_neg hout]
  · rw [hpout]
    exact lookup_reconPout_pixel (c := Config.hw) s.grid s.pout hx hy hch

/-- R96 (c): an element that is not above 0 comes out as 0. -/
theorem pixelOut_of_nonpos {grid : List (Nat × Elem)} (h : (gridRead grid (pixelElem c px py)).toInt ≤ 0) :
    pixelOut c grid px py = 0 := c.recon_nonpos _ _ (c.scale_pos _ _) h

theorem lookup_reconPout_of_nonpos {grid : List (Nat × Elem)} (pout : List Host.Cell)
    (h : ∀ e, e < c.gridSize → (gridRead grid e).toInt ≤ 0) {a : Nat} (ha : a < c.pinSize) :
    Memory.lookup (reconPout c grid pout) a = some 0 := by
  have hindex : a / 3 < c.npix := by
    simp only [Cfg.pinSize, Config.nch] at ha
    omega
  obtain ⟨hx, hy⟩ := pixel_of_index hindex
  rw [lookup_reconPout, if_pos ha, pixelOut_of_nonpos (h _ (pixelElem_lt hx hy))]

/-- Settles O29: every byte of `POUT` belongs to a pixel, whose element is not above 0. -/
theorem reconOfNonPositiveGridIsBlack : Obligations.ReconOfNonPositiveGridIsBlack := by
  intro s hgrid
  obtain ⟨t, ht, -, hpout⟩ := reconOn_next Config.hw s
  refine ⟨t, ht, fun a ha => ?_⟩
  rw [hpout]
  exact lookup_reconPout_of_nonpos (c := Config.hw) s.pout hgrid ha

/-- The float format is no shorter than binary16, so one rounding adds at most 1/1024 (R96 (d)). -/
theorem reconHigh_le (c : Cfg) (ox oy : Fin 8) :
    Config.reconHigh c.floatBits (c.scale ox oy) ≤ 255 * c.scale ox oy * 1025 / 1024 := by
  have hround := Config.oneRounding_le c.floatBits_min
  calc Config.reconHigh c.floatBits (c.scale ox oy)
      = 255 * c.scale ox oy * (1 + Config.oneRounding c.floatBits) := rfl
    _ ≤ 255 * c.scale ox oy * (1 + 1 / 1024) := by
        have hscale := c.scale_pos ox oy
        gcongr
    _ = 255 * c.scale ox oy * 1025 / 1024 := by ring

/-- Settles O48: R96 (d) on the pixel's element, and the width of the one rounding. -/
theorem reconOfHighElementsIsWhite : Obligations.ReconOfHighElementsIsWhite := by
  refine ⟨fun c s px py ch hx hy hch hhigh => ⟨_, reconOn_eq c s, ?_⟩,
    fun c ox oy => ⟨Config.lt_reconHigh c.floatBits (c.scale_pos ox oy), reconHigh_le c ox oy⟩, exec_recon_on⟩
  have hwhite : pixelOut c s.grid px py = 255 := c.recon_high _ _ (c.scale_pos _ _) hhigh
  rw [← hwhite]
  exact lookup_reconPout_pixel s.grid s.pout hx hy hch

/-! #### `PART ; RECON` -/

/-- R96 (e): over a scale of 1, a luma value comes out as it is. -/
theorem recon_one_luma (c : Cfg) (r g b : Byte) : (c.recon (c.luma r g b) 1).toNat = (c.luma r g b).toNat := by
  have hle := c.luma_le r g b
  have hone := c.recon_one (c.luma r g b)
  rw [luma_toInt] at hone
  exact Int.ofNat.inj (hone (by omega) (by omega))

/-- Settles O30: `RECON` reads the luma that `PART` has stored, over a scale of 1. -/
theorem partThenReconIsLuma : Obligations.PartThenReconIsLuma := by
  intro c s hscale hw hh hpin
  obtain ⟨grid, hgrid⟩ := partGrid_of_pinWritten hpin
  refine ⟨_, _, partOn_eq c s ((shapeOk_iff c s).2 ⟨hw, hh⟩) hgrid, reconOn_eq c _,
    fun px py ch r g b hx hy hch hr hg hb => ⟨_, lookup_reconPout_pixel grid s.pout hx hy hch, ?_⟩⟩
  rw [pixelOut, gridRead_partGrid hgrid hx hy hr hg hb, hscale]
  exact recon_one_luma c r g b

end Sys2Proof.Machine

/-! ### The 1D transform engine (spec 41_transform_1d.md): the guard, and what a 1D command answers. `INV1D` is
`FWD1D` over the transposed matrix, so each lemma is over any eight coefficient vectors `w`. -/

namespace Sys2Proof.Machine

open Sys2Proof.Claims

variable {w : Fin 8 → Vec8} {x : Vec8} {s : State}

/-! #### The sums of eight lanes as finite sums -/

theorem dot_eq_sum (w x : Vec8) : dot w x = ∑ i, w i * x i := by
  rw [dot, sum8, Fin.sum_univ_eight]

theorem guardSum_eq_guardTotal (w x : Vec8) : guardSum w x = guardTotal w x := by
  rw [guardSum, sumNat8, guardTotal, Fin.sum_univ_eight]

/-! #### The guard (R111) -/

theorem guardOk_iff_guardWithin (w x : Vec8) : guardOk w x = true ↔ guardWithin w x := by
  rw [guardOk_iff, guardSum_eq_guardTotal]
  rfl

theorem guardOk_eq_false_iff (w x : Vec8) : guardOk w x = false ↔ ¬ guardWithin w x := by
  rw [← guardOk_iff_guardWithin, Bool.not_eq_true]

/-- A legal coefficient vector multiplies the magnitudes of the input by at most 16. -/
theorem guardTotal_le {w : Vec8} (hw : ∀ i, (w i).natAbs ≤ 16) (x : Vec8) :
    guardTotal w x ≤ 16 * ∑ i, (x i).natAbs := by
  rw [guardTotal, Finset.mul_sum]
  exact Finset.sum_le_sum fun i _ => Nat.mul_le_mul_right _ (hw i)

theorem guardsHold_of_sum_natAbs_le (hw : ∀ k i, (w k i).natAbs ≤ 16) (hx : ∑ i, (x i).natAbs ≤ 2 ^ 27 - 1) :
    guardsHold w x := by
  intro k
  rw [guardOk_iff_guardWithin]
  calc guardTotal (w k) x ≤ 16 * ∑ i, (x i).natAbs := guardTotal_le (hw k) x
    _ ≤ 16 * (2 ^ 27 - 1) := Nat.mul_le_mul_left 16 hx
    _ ≤ 2 ^ 31 - 1 := by decide

/-- A partial sum over any set of indexes is at most the guard's sum. -/
theorem partialSum_natAbs_le (w x : Vec8) (S : Finset (Fin 8)) :
    (∑ i ∈ S, w i * x i).natAbs ≤ guardTotal w x :=
  calc (∑ i ∈ S, w i * x i).natAbs ≤ ∑ i ∈ S, (w i * x i).natAbs := Int.natAbs_sum_le _ _
    _ = ∑ i ∈ S, (w i).natAbs * (x i).natAbs := by simp only [Int.natAbs_mul]
    _ ≤ guardTotal w x := Finset.sum_le_univ_sum_of_nonneg fun _ => Nat.zero_le _

/-- Settles O13: a partial sum is at most the guard's sum, and that at most 16 times the magnitudes of `VS`. -/
theorem guardBoundsEveryPartialSum : Obligations.GuardBoundsEveryPartialSum :=
  ⟨fun w x h S => (partialSum_natAbs_le w x S).trans ((guardOk_iff_guardWithin w x).1 h),
    fun c _ hx => ⟨guardsHold_of_sum_natAbs_le c.matrix_bound hx,
      guardsHold_of_sum_natAbs_le (fun n k => c.matrix_bound k n) hx⟩⟩

/-! #### The answer of a 1D command (R112, R113) -/

theorem fwd1dOn_eq_vectorCmd (c : Cfg) (s : State) :
    fwd1dOn c s = vectorCmd c.matrix (fwd1D c.matrix (lanes s.vs)) s := rfl

/-- R114: the inverse function is the forward one with the matrix indexed transposed. -/
theorem inv1dOn_eq_vectorCmd (c : Cfg) (s : State) :
    inv1dOn c s = vectorCmd (column c.matrix) (fwd1D (column c.matrix) (lanes s.vs)) s := rfl

/-- With every guard holding, each output fits its lane of `VD`, and nothing but `VD` and `pc` changes. -/
theorem vectorCmd_fwd1D_next (h : ∀ k, guardWithin (w k) (lanes s.vs)) :
    ∃ t, vectorCmd w (fwd1D w (lanes s.vs)) s = .next t ∧ onlyVd s t ∧
      ∀ k, lanes t.vd k = (∑ i, w k i * lanes s.vs i) / 16 := by
  have hok : guardsHold w (lanes s.vs) := fun k => (guardOk_iff_guardWithin _ _).2 (h k)
  refine ⟨_, vectorCmd_ok hok _, rfl, fun k => ?_⟩
  calc lanes (ofLanes (fwd1D w (lanes s.vs))) k
      = (BitVec.ofInt 32 (asr (dot (w k) (lanes s.vs)) 4)).toInt := lanes_ofLanes _ k
    _ = asr (dot (w k) (lanes s.vs)) 4 := toInt_ofInt_of_guard (hok k)
    _ = (∑ i, w k i * lanes s.vs i) / 16 := by rw [asr_four, dot_eq_sum]

theorem vectorCmd_faultTaken {k : Fin 8} (hk : ¬ guardWithin (w k) (lanes s.vs))
    (hlt : ∀ j, j < k → guardWithin (w j) (lanes s.vs)) (y : Vec8) :
    ∃ t, vectorCmd w y s = .next t ∧ faultTaken 2 (BitVec.ofNat 32 k.val) s t := by
  rw [vectorCmd_fault ((guardOk_eq_false_iff _ _).2 hk) (fun j hj => (guardOk_iff_guardWithin _ _).2 (hlt j hj))]
  exact faultTaken_raise .arithOverflow _ s

/-- Settles O10: a 1D command with the rows of the matrix as its coefficient vectors. -/
theorem fwd1dResult : Obligations.Fwd1dResult := by
  refine ⟨fun s h => ?_, fun c s k hk hlt => ?_, exec_fwd1d_on⟩
  · rw [exec_fwd1d_on, fwd1dOn_eq_vectorCmd]
    exact vectorCmd_fwd1D_next h
  · rw [fwd1dOn_eq_vectorCmd]
    exact vectorCmd_faultTaken hk hlt _

/-- Settles O11: a 1D command with the columns of the matrix as its coefficient vectors. -/
theorem inv1dResult : Obligations.Inv1dResult := by
  refine ⟨fun s h => ?_, fun c s n hn hlt => ?_, exec_inv1d_on⟩
  · rw [exec_inv1d_on, inv1dOn_eq_vectorCmd]
    exact vectorCmd_fwd1D_next h
  · rw [inv1dOn_eq_vectorCmd]
    exact vectorCmd_faultTaken (w := column c.matrix) hn hlt _

/-! #### Reading the matrix out (corner cases of R112 and R113) -/

/-- `x` is 16 in lane `i` and 0 elsewhere. -/
def isSixteenAt (x : Vec8) (i : Fin 8) : Prop := ∀ j, x j = if j = i then 16 else 0

theorem sum_mul_of_isSixteenAt {i : Fin 8} (h : isSixteenAt x i) (w : Vec8) : (∑ j, w j * x j) / 16 = w i := by
  have hsum : ∑ j, w j * x j = w i * 16 := by simp [h _]
  rw [hsum]
  exact Int.mul_ediv_cancel _ (by decide)

theorem sum_natAbs_of_isSixteenAt {i : Fin 8} (h : isSixteenAt x i) : ∑ j, (x j).natAbs = 16 := by
  simp [h _, apply_ite Int.natAbs]

/-- With 16 in lane `i` the guards hold, and output `k` is entry `i` of coefficient vector `k`. -/
theorem vectorCmd_of_isSixteenAt {i : Fin 8} (hw : ∀ k j, (w k j).natAbs ≤ 16) (h : isSixteenAt (lanes s.vs) i) :
    ∃ t, vectorCmd w (fwd1D w (lanes s.vs)) s = .next t ∧ ∀ k, lanes t.vd k = w k i := by
  have hx : ∑ j, (lanes s.vs j).natAbs ≤ 2 ^ 27 - 1 := by
    rw [sum_natAbs_of_isSixteenAt h]
    decide
  obtain ⟨t, ht, -, hvd⟩ :=
    vectorCmd_fwd1D_next fun k => (guardOk_iff_guardWithin _ _).1 (guardsHold_of_sum_natAbs_le hw hx k)
  exact ⟨t, ht, fun k => by rw [hvd, sum_mul_of_isSixteenAt h]⟩

/-- Settles O12: with 16 in one lane, the rows of the matrix give its column and its columns its row. -/
theorem vectorEngineReadsTheMatrixOut : Obligations.VectorEngineReadsTheMatrixOut := by
  intro s i h
  rw [exec_fwd1d_on, fwd1dOn_eq_vectorCmd, exec_inv1d_on, inv1dOn_eq_vectorCmd]
  exact ⟨vectorCmd_of_isSixteenAt Config.hw.matrix_bound h,
    vectorCmd_of_isSixteenAt (fun n k => Config.hw.matrix_bound k n) h⟩

end Sys2Proof.Machine

/-! ### The 2D transforms (spec 42_transform_2d.md): their closed forms, and the bounds inside the two passes.
`INV2D` is `FWD2D` over the transposed matrix and the transposed block, so what is proved of `FWD2D` for any matrix
gives both. -/

namespace Sys2Proof.Machine

open Sys2Proof.Claims

/-! #### The inverse as the forward transform of the transposed block (R120, R123) -/

/-- The block with its rows and columns exchanged. -/
def blockTranspose (X : Block) : Block := fun r col => X col r

theorem blockInts_blockTranspose (X : Block) : blockInts (blockTranspose X) = column (blockInts X) := rfl

theorem invPass1_eq_fwdPass1 (m : Work) (X : Block) (i col : Fin 8) :
    invPass1 m X i col = fwdPass1 (column m) (blockTranspose X) col i := rfl

theorem transpose_invPass1_column (m : Work) (X : Block) (i : Fin 8) :
    column (transpose (invPass1 m X)) i = transpose (fwdPass1 (column m) (blockTranspose X)) i := rfl

theorem invPass2_eq_fwdPass2 (m : Work) (X : Block) (i col : Fin 8) :
    invPass2 m X i col = fwdPass2 (column m) (blockTranspose X) col i := rfl

theorem inv2D_eq_fwd2D (m : Work) (X : Block) :
    inv2D m X = blockTranspose (fwd2D (column m) (blockTranspose X)) := rfl

theorem invFormula_eq_fwdFormula (m C : Work) (i n : Fin 8) :
    invFormula m C i n = fwdFormula (column m) (column C) n i := rfl

/-! #### The closed forms (R121, R124) -/

theorem sat16_eq_clamp16 (v : Int) : sat16 v = clamp16 v := by
  simp only [sat16, clamp, clamp16, Config.elemMin, Config.elemMax]
  split_ifs <;> omega

theorem fwd1D_eq_sum (m : Work) (x : Vec8) (k : Fin 8) : fwd1D m x k = (∑ n, m k n * x n) / 16 := by
  rw [fwd1D, asr_four, dot_eq_sum]

/-- R121: the element at `[j][k]` is output `j` of pass 2 on column `k` of pass 1, clamped. -/
theorem toInt_fwd2D (m : Work) (X : Block) (j k : Fin 8) :
    (fwd2D m X j k).toInt = fwdFormula m (blockInts X) j k :=
  calc (fwd2D m X j k).toInt
      = sat16 (fwd1D m (fun r => fwd1D m (blockInts X r) k) j) := toInt_toElem_sat16 _
    _ = fwdFormula m (blockInts X) j k := by simp only [sat16_eq_clamp16, fwd1D_eq_sum, fwdFormula]

/-- R124, from R121 over the transposed matrix and block. -/
theorem toInt_inv2D (m : Work) (X : Block) (i n : Fin 8) :
    (inv2D m X i n).toInt = invFormula m (blockInts X) i n := by
  rw [inv2D_eq_fwd2D, invFormula_eq_fwdFormula, ← blockInts_blockTranspose]
  exact toInt_fwd2D (column m) (blockTranspose X) n i

/-! #### What a block operation leaves in its two forms -/

theorem blockInts_blockRead (g : List (Nat × Elem)) (b : Nat) : blockInts (blockRead g b) = elemAt g b := rfl

namespace BlockOperation

variable {n : Nat} {ok : Block → Prop} {f : Block → Block} {single : BitVec 16 → Instr} {grid : Instr}

/-- The single form completes and puts `f` of the block in place of the block. -/
theorem single_next (h : BlockOperation n ok f single grid) {blk : BitVec 16} {s : State} (hb : blk.toNat < n)
    (hok : ok (blockRead s.grid blk.toNat)) :
    ∃ t, exec (single blk) s = .next t ∧ onlyGrid s t ∧ otherBlocksSame blk.toNat s t ∧
      blockRead t.grid blk.toNat = f (blockRead s.grid blk.toNat) := by
  refine ⟨_, h.exec_single blk s hb hok, rfl, fun e he => ?_, ?_⟩
  · rw [State.withPc_grid, State.withGrid_grid, gridRead_blockUpdate, if_neg he]
  · rw [State.withPc_grid, State.withGrid_grid, blockRead_blockUpdate, if_pos rfl]

/-- The grid form completes and puts `f` of each block in place of the block. -/
theorem grid_next (h : BlockOperation n ok f single grid) (hn : n ≤ 5400) {s : State}
    (hok : ∀ b, b < n → ok (blockRead s.grid b)) :
    ∃ t, exec grid s = .next t ∧ onlyGrid s t ∧ outsideSame s t ∧
      ∀ b, b < n → blockRead t.grid b = f (blockRead s.grid b) := by
  refine ⟨_, h.exec_grid s hok, rfl, fun e he => ?_, fun b hb => ?_⟩
  · have hout : ¬ e / 64 < n := by omega
    rw [State.withPc_grid, State.withGrid_grid, gridRead_gridUpdate, if_neg hout]
  · rw [State.withPc_grid, State.withGrid_grid, blockRead_gridUpdate, if_pos hb]

/-- The single form in a formula `F` for the elements of `f`. -/
theorem single_result (h : BlockOperation n (fun _ => True) f single grid) {F : Work → Work}
    (hF : ∀ X r col, (f X r col).toInt = F (blockInts X) r col) {blk : BitVec 16} (s : State) (hb : blk.toNat < n) :
    ∃ t, exec (single blk) s = .next t ∧ onlyGrid s t ∧ otherBlocksSame blk.toNat s t ∧
      ∀ r col, elemAt t.grid blk.toNat r col = F (elemAt s.grid blk.toNat) r col := by
  obtain ⟨t, ht, honly, hother, hblock⟩ := h.single_next (s := s) hb trivial
  refine ⟨t, ht, honly, hother, fun r col => ?_⟩
  rw [elemAt_eq_blockRead, hblock, hF, blockInts_blockRead]

/-- The grid form in a formula `F` for the elements of `f`. -/
theorem grid_result (h : BlockOperation n (fun _ => True) f single grid) (hn : n ≤ 5400) {F : Work → Work}
    (hF : ∀ X r col, (f X r col).toInt = F (blockInts X) r col) (s : State) :
    ∃ t, exec grid s = .next t ∧ onlyGrid s t ∧ outsideSame s t ∧
      ∀ b r col, b < n → elemAt t.grid b r col = F (elemAt s.grid b) r col := by
  obtain ⟨t, ht, honly, hout, hblock⟩ := h.grid_next hn (s := s) fun _ _ => trivial
  refine ⟨t, ht, honly, hout, fun b r col hb => ?_⟩
  rw [elemAt_eq_blockRead, hblock b hb, hF, blockInts_blockRead]

end BlockOperation

/-- Settles O14: `FWD2D` is a block operation, and R121 gives its elements. -/
theorem fwd2dResult : Obligations.Fwd2dResult := fun s _ hb =>
  fwd2d_blockOperation.single_result (toInt_fwd2D Config.hw.matrix) s hb

/-- Settles O15: `INV2D` is a block operation, and R124 gives its elements. -/
theorem inv2dResult : Obligations.Inv2dResult := fun s _ hb =>
  inv2d_blockOperation.single_result (toInt_inv2D Config.hw.matrix) s hb

/-- Settles O16: the grid forms of the same two block operations. -/
theorem transformGridFormsResult : Obligations.TransformGridFormsResult := fun s =>
  ⟨fwd2d_blockOperation.grid_result hw_nblk.le (toInt_fwd2D Config.hw.matrix) s,
    inv2d_blockOperation.grid_result hw_nblk.le (toInt_inv2D Config.hw.matrix) s⟩

/-! #### No guard can fail inside the two passes (R126) -/

theorem guardTotal_le_of_natAbs_le {w x : Vec8} {B : Nat} (hw : ∀ i, (w i).natAbs ≤ 16)
    (hx : ∀ i, (x i).natAbs ≤ B) : guardTotal w x ≤ 128 * B :=
  guardSum_eq_guardTotal w x ▸ guardSum_le hw hx

section LegalMatrix

variable {m : Work} (hm : ∀ k n, (m k n).natAbs ≤ 16) (X : Block) (r k : Fin 8)
include hm

theorem guardTotal_fwdPass1_le : guardTotal (m k) (blockInts X r) ≤ 2 ^ 22 :=
  guardTotal_le_of_natAbs_le (B := 2 ^ 15) (hm k) (blockInts_natAbs_le X r)

theorem guardTotal_fwdPass2_le : guardTotal (m k) (transpose (fwdPass1 m X) r) ≤ 2 ^ 25 :=
  guardTotal_le_of_natAbs_le (B := 2 ^ 18) (hm k) fun i => fwdPass1_natAbs_le hm X i r

theorem fwdPass2_natAbs_le : (fwdPass2 m X r k).natAbs ≤ 2 ^ 21 :=
  asr_dot_natAbs_le (B := 2 ^ 18) (hm k) fun i => fwdPass1_natAbs_le hm X i r

end LegalMatrix

/-- A well-formed transform command is the cause of no fault (R122, R125, R128, R129). -/
theorem not_causes_of_isTransform {i : Instr} (hi : i.wf = true) (ht : isTransform i = true) (s : State)
    (f : HwFault) (info : Word) : ¬ Causes Config.hw i s f info := by
  intro hc
  cases f with
  | inputShape => obtain ⟨rfl | rfl, -⟩ := hc <;> cases ht
  | arithOverflow => obtain ⟨rfl | rfl, -⟩ | ⟨⟨b, rfl⟩ | rfl, -⟩ := hc <;> cases ht
  | illegalCommand =>
    have hnot : i.wf = false := hc.2
    rw [hi] at hnot
    cases hnot

/-- Settles O17: the bounds of `FWD2D` over any legal matrix, taken again over its transpose for `INV2D`; and a
transform that answers a next state has completed. -/
theorem transformsNeverOverflow : Obligations.TransformsNeverOverflow := by
  refine ⟨fun c X r k => ?_, fun i s t hi htr h => ?_⟩
  · have hcol : ∀ n k, (column c.matrix n k).natAbs ≤ 16 := fun n k => c.matrix_bound k n
    rw [invPass1_eq_fwdPass1, invPass2_eq_fwdPass2, transpose_invPass1_column, ← blockInts_blockTranspose]
    exact ⟨guardTotal_fwdPass1_le c.matrix_bound X r k, fwdPass1_natAbs_le c.matrix_bound X r k,
      guardTotal_fwdPass2_le c.matrix_bound X r k, fwdPass2_natAbs_le c.matrix_bound X r k,
      guardTotal_fwdPass1_le hcol _ r k, fwdPass1_natAbs_le hcol _ r k, guardTotal_fwdPass2_le hcol _ r k,
      fwdPass2_natAbs_le hcol _ r k⟩
  · obtain ⟨vd, grid, pout, rfl, -⟩ | ⟨f, info, grid, -, hc, -⟩ := exec_cases h
    · exact ⟨rfl, rfl⟩
    · exact absurd hc (not_causes_of_isTransform hi htr s f info)

end Sys2Proof.Machine

/-! ### Quantisation (spec 43_quantization.md): what `QNT`, `DQT` and the pair of them leave of an element, of a block
and of the grid -/

namespace Sys2Proof.Machine

open Sys2Proof.Claims

/-! #### `QNT` (R140, R141) -/

theorem toInt_quantBlock (X : Block) (r col : Fin 8) : (quantBlock X r col).toInt = blockInts X r col / 32 :=
  toInt_quantElem (X r col)

theorem blockFits_quantBlock (X : Block) : blockFits (quantBlock X) = true :=
  (blockFits_iff _).2 fun r col => fitsDqt_quantElem (X r col)

/-- Settles O18: `QNT` is a block operation that divides by 32, and what it leaves fits `DQT`. -/
theorem qntResult : Obligations.QntResult := by
  intro s blk hb
  obtain ⟨t, ht, honly, hother, hblock⟩ := qnt_blockOperation.single_next (s := s) hb trivial
  have hfits : blockFits (blockRead t.grid blk.toNat) = true := hblock ▸ blockFits_quantBlock _
  refine ⟨t, ht, honly, hother, fun r col => ⟨?_, (blockFits_blockRead_iff _ _).1 hfits r col⟩⟩
  rw [elemAt_eq_blockRead, hblock, toInt_quantBlock, blockInts_blockRead]

/-- Settles O19: the grid form of the same block operation. -/
theorem qntGridResult : Obligations.QntGridResult := fun s =>
  qnt_blockOperation.grid_result hw_nblk.le (F := fun X r col => X r col / 32) toInt_quantBlock s

/-! #### `DQT` (R142, R143) -/

theorem blockFits_blockRead_eq_false_iff (g : List (Nat × Elem)) (b : Nat) :
    blockFits (blockRead g b) = false ↔ ∃ r col, elemAt g b r col < -1024 ∨ 1023 < elemAt g b r col := by
  simp only [← Bool.not_eq_true, blockFits_blockRead_iff, not_forall, not_and_or, not_le]

/-- Where a block that fits has been dequantised, each of its elements is 32 times what it was. -/
theorem elemAt_of_dequantised {g h : List (Nat × Elem)} {b : Nat} (hfit : blockFits (blockRead g b) = true)
    (hblock : blockRead h b = dequantBlock (blockRead g b)) (r col : Fin 8) :
    elemAt h b r col = elemAt g b r col * 32 := by
  rw [elemAt_eq_blockRead, hblock]
  exact toInt_dequantElem ((blockFits_iff _).1 hfit r col)

/-- Settles O20: `DQT` is a block operation on the blocks that fit; on any other it raises. -/
theorem dqtResult : Obligations.DqtResult := by
  intro s blk hb
  refine ⟨fun hrange => ?_, fun hbad => ?_⟩
  · have hfit := (blockFits_blockRead_iff s.grid blk.toNat).2 hrange
    obtain ⟨t, ht, honly, hother, hblock⟩ := dqt_blockOperation.single_next hb hfit
    exact ⟨t, ht, honly, hother, elemAt_of_dequantised hfit hblock⟩
  · have hnot := (blockFits_blockRead_eq_false_iff s.grid blk.toNat).2 hbad
    rw [exec_dqt_on, dqtOn_fault Config.hw s hb hnot, BitVec.ofNat_toNat]
    exact faultTaken_raise .arithOverflow _ s

theorem grid_of_faultTaken {cause : BitVec 4} {info : Word} {s t : State} (h : faultTaken cause info s t) :
    t.grid = s.grid := by
  obtain ⟨-, -, -, -, -, hframe⟩ := h
  rw [hframe]
  rfl

/-- Settles O21: with every block in range the grid form completes; else it raises at the lowest block that does not
fit, over the grid iteration up to that block. -/
theorem dqtGridResult : Obligations.DqtGridResult := by
  refine fun s => ⟨fun hrange => ?_, fun b hb hbad hbelow => ?_⟩
  · have hfit : ∀ b, b < Config.hw.nblk → blockFits (blockRead s.grid b) = true := fun b hb =>
      (blockFits_blockRead_iff s.grid b).2 fun r col => hrange b r col hb
    obtain ⟨t, ht, honly, hout, hblock⟩ := dqt_blockOperation.grid_next hw_nblk.le hfit
    exact ⟨t, ht, honly, hout, fun b r col hb => elemAt_of_dequantised (hfit b hb) (hblock b hb) r col⟩
  · have hfit : ∀ j, j < b → blockFits (blockRead s.grid j) = true := fun j hj =>
      (blockFits_blockRead_iff s.grid j).2 fun r col => hbelow j r col hj
    have hfirst : firstOverflow Config.hw.nblk s.grid = some b :=
      (firstOverflow_eq_some _ _ _).2 ⟨hb, (blockFits_blockRead_eq_false_iff s.grid b).2 hbad, hfit⟩
    obtain ⟨t, ht, hfault⟩ := faultTaken_raise .arithOverflow (BitVec.ofNat 32 b)
      (s.withGrid (gridUpdate dequantBlock b s.grid))
    have hgrid : t.grid = gridUpdate dequantBlock b s.grid := grid_of_faultTaken hfault
    refine ⟨t, ?_, hgrid ▸ hfault, fun j r col hj => ?_, fun e he => ?_⟩
    · rw [exec_dqtG_on, dqtGOn_fault Config.hw s hfirst, ht]
    · refine elemAt_of_dequantised (hfit j hj) ?_ r col
      rw [hgrid, blockRead_gridUpdate, if_pos hj]
    · rw [hgrid, gridRead_gridUpdate, if_neg (Nat.not_lt.2 he)]

/-! #### `QNT ; DQT` (R144) -/

/-- R144 over integers. -/
theorem toInt_dequantElem_quantElem (v : Elem) : (dequantElem (quantElem v)).toInt = v.toInt - v.toInt % 32 := by
  rw [toInt_dequantElem (fitsDqt_quantElem v), toInt_quantElem]
  omega

theorem quantElem_eq_sshiftRight (v : Elem) : quantElem v = v.sshiftRight 5 := by
  rw [quantElem, toElem, asr_five, BitVec.sshiftRight, Int.shiftRight_eq_div_pow]
  rfl

theorem dequantElem_eq_shiftLeft (v : Elem) : dequantElem v = v <<< 5 := by
  rw [dequantElem, toElem, shl_five, BitVec.ofInt_mul, BitVec.ofInt_toInt, BitVec.shiftLeft_eq_mul_twoPow]
  rfl

/-- R144 over bits: the shifts drop the low five. -/
theorem dequantElem_quantElem_eq_and (v : Elem) : dequantElem (quantElem v) = v &&& 0xFFE0#16 := by
  rw [quantElem_eq_sshiftRight, dequantElem_eq_shiftLeft]
  ext i hi
  interval_cases i <;> simp [BitVec.getElem_sshiftRight]

/-- A second time changes nothing more. -/
theorem dequantElem_quantElem_idem (v : Elem) :
    dequantElem (quantElem (dequantElem (quantElem v))) = dequantElem (quantElem v) := by
  rw [dequantElem_quantElem_eq_and (dequantElem _), dequantElem_quantElem_eq_and, BitVec.and_assoc, BitVec.and_self]

/-- The pair runs through: what `QNT` leaves of the block fits `DQT`. -/
theorem runAll_qdq {blk : BitVec 16} (hb : blk.toNat < Config.hw.nblk) (s : State) :
    runAll (expand (.qdq blk)) s = .next ((s.withGrid (blockUpdate dequantBlock
      (blockUpdate quantBlock s.grid blk.toNat) blk.toNat)).withPc (s.pc + 2)) := by
  have hqnt := qnt_blockOperation.exec_single blk s hb trivial
  have hfit : blockFits (blockRead (blockUpdate quantBlock s.grid blk.toNat) blk.toNat) = true := by
    rw [blockRead_blockUpdate, if_pos rfl]
    exact blockFits_quantBlock _
  have hdqt := dqt_blockOperation.exec_single blk
    ((s.withGrid (blockUpdate quantBlock s.grid blk.toNat)).withPc (s.pc + 1)) hb hfit
  rw [expand, runAll_cons hqnt, runAll_cons hdqt]
  simp only [runAll, State.withPc_withGrid, State.withGrid_withGrid, State.withPc_withPc, State.withPc_grid,
    State.withGrid_grid, State.withPc_pc]

theorem gridRead_dequantised_quantised (g : List (Nat × Elem)) (b e : Nat) :
    gridRead (blockUpdate dequantBlock (blockUpdate quantBlock g b) b) e =
      if e / 64 = b then dequantElem (quantElem (gridRead g e)) else gridRead g e := by
  rw [gridRead_blockUpdate, blockRead_blockUpdate, if_pos rfl, gridRead_blockUpdate]
  split
  · next he =>
    rw [gridRead_eq_blockRead g, he]
    rfl
  · rfl

theorem qdq_next {blk : BitVec 16} (hb : blk.toNat < Config.hw.nblk) (s : State) :
    ∃ t, runAll (expand (.qdq blk)) s = .next t ∧ t.pc = s.pc + 2 ∧ t.status = s.status ∧
      ∀ e, gridRead t.grid e =
        if e / 64 = blk.toNat then dequantElem (quantElem (gridRead s.grid e)) else gridRead s.grid e := by
  refine ⟨_, runAll_qdq hb s, State.withPc_pc _ _, ?_, fun e => ?_⟩
  · rw [State.withPc_status, State.withGrid_status]
  · rw [State.withPc_grid, State.withGrid_grid, gridRead_dequantised_quantised]

/-- Settles O22: the pair from any state, and a second time from where the first has left the grid. -/
theorem quantiseThenDequantiseClearsLowBits : Obligations.QuantiseThenDequantiseClearsLowBits := by
  intro s blk hb
  obtain ⟨t, ht, hpc, hstatus, hgrid⟩ := qdq_next hb s
  obtain ⟨u, hu, -, -, hagain⟩ := qdq_next hb t
  refine ⟨t, ht, hpc, hstatus, fun e he => ?_, u, hu, fun e => ?_⟩
  · rw [hgrid, if_pos he]
    exact ⟨toInt_dequantElem_quantElem _, dequantElem_quantElem_eq_and _⟩
  · rw [hagain, hgrid]
    split
    · exact dequantElem_quantElem_idem _
    · rfl

/-! #### All-zero blocks (R145) -/

/-- The block whose every element is 0. -/
def zeroBlock : Block := fun _ _ => 0

theorem blockRead_eq_zeroBlock_iff (g : List (Nat × Elem)) (b : Nat) :
    blockRead g b = zeroBlock ↔ ∀ r col, elemAt g b r col = 0 := by
  simp only [funext_iff, zeroBlock, elemAt_eq_blockRead, ← BitVec.toInt_inj]
  rfl

theorem quantBlock_zeroBlock : quantBlock zeroBlock = zeroBlock := by
  have helem : quantElem 0 = 0 := by decide
  funext r col
  exact helem

theorem dequantBlock_zeroBlock : dequantBlock zeroBlock = zeroBlock := by
  have helem : dequantElem 0 = 0 := by decide
  funext r col
  exact helem

theorem fwd2D_zeroBlock (m : Work) : fwd2D m zeroBlock = zeroBlock := by
  funext j k
  apply BitVec.eq_of_toInt_eq
  rw [toInt_fwd2D]
  simp [fwdFormula, blockInts, zeroBlock, clamp16]

theorem inv2D_zeroBlock (m : Work) : inv2D m zeroBlock = zeroBlock := by
  have htranspose : blockTranspose zeroBlock = zeroBlock := rfl
  rw [inv2D_eq_fwd2D, htranspose, fwd2D_zeroBlock, htranspose]

theorem pc_of_onlyGrid {s t : State} (h : onlyGrid s t) : t.pc = s.pc + 1 := by
  rw [h, State.withPc_pc]

theorem status_of_onlyGrid {s t : State} (h : onlyGrid s t) : t.status = s.status := by
  rw [h, State.withPc_status, State.withGrid_status]

/-- A block operation that takes the all-zero block and gives it back keeps an all-zero block. -/
theorem BlockOperation.single_of_zero {n : Nat} {ok : Block → Prop} {f : Block → Block} {single : BitVec 16 → Instr}
    {grid : Instr} (h : BlockOperation n ok f single grid) (hok : ok zeroBlock) (hf : f zeroBlock = zeroBlock)
    {blk : BitVec 16} {s : State} (hb : blk.toNat < n) (hzero : ∀ r col, elemAt s.grid blk.toNat r col = 0) :
    ∃ t, exec (single blk) s = .next t ∧ t.pc = s.pc + 1 ∧ t.status = s.status ∧
      ∀ r col, elemAt t.grid blk.toNat r col = 0 := by
  have hread := (blockRead_eq_zeroBlock_iff s.grid blk.toNat).2 hzero
  obtain ⟨t, ht, honly, -, hblock⟩ := h.single_next hb (hread.symm ▸ hok)
  rw [hread, hf] at hblock
  exact ⟨t, ht, pc_of_onlyGrid honly, status_of_onlyGrid honly, (blockRead_eq_zeroBlock_iff _ _).1 hblock⟩

/-- Settles O23: each of the four is a block operation that gives the all-zero block back, and that block fits `DQT`. -/
theorem zeroBlocksStayZero : Obligations.ZeroBlocksStayZero := by
  intro s blk i hb hi hzero
  simp only [blockCommands, List.mem_cons, List.not_mem_nil, or_false] at hi
  obtain rfl | rfl | rfl | rfl := hi
  · exact fwd2d_blockOperation.single_of_zero trivial (fwd2D_zeroBlock _) hb hzero
  · exact qnt_blockOperation.single_of_zero trivial quantBlock_zeroBlock hb hzero
  · exact dqt_blockOperation.single_of_zero (by decide) dequantBlock_zeroBlock hb hzero
  · exact inv2d_blockOperation.single_of_zero trivial (inv2D_zeroBlock _) hb hzero

end Sys2Proof.Machine

/-! ### Pipeline (spec 44_pipeline.md): the commands one after another as one update of `GRID`, `RUN` as the six
commands, and running it again -/

namespace Sys2Proof.Machine

open Sys2Proof.Claims

/-! #### Commands that only update `GRID` -/

/-- From every state with the grid `g` the commands run through and leave the grid `g'`; nothing else changes but
`pc`, one further for each command. -/
def UpdatesGrid (is : List Instr) (g g' : List (Nat × Elem)) : Prop :=
  ∀ s : State, s.grid = g → runAll is s = .next ((s.withGrid g').withPc (s.pc + is.length))

theorem runAll_append {is : List Instr} {s t : State} (h : runAll is s = .next t) (rest : List Instr) :
    runAll (is ++ rest) s = runAll rest t := by
  induction is generalizing s with
  | nil =>
    cases h
    rfl
  | cons i is ih =>
    cases hexec : exec i s with
    | next u =>
      rw [runAll_cons hexec] at h
      rw [List.cons_append, runAll_cons hexec, ih h]
    | fault r => simp [runAll, hexec] at h
    | refused r => simp [runAll, hexec] at h

theorem UpdatesGrid.append {is js : List Instr} {g g' g'' : List (Nat × Elem)} (h : UpdatesGrid is g g')
    (h' : UpdatesGrid js g' g'') : UpdatesGrid (is ++ js) g g'' := by
  intro s hs
  rw [runAll_append (h s hs), h' _ rfl]
  simp only [State.withPc_withGrid, State.withGrid_withGrid, State.withPc_withPc, State.withPc_pc,
    List.length_append, Nat.add_assoc]

theorem UpdatesGrid.exists_next {is : List Instr} {s : State} {g' : List (Nat × Elem)}
    (h : UpdatesGrid is s.grid g') :
    ∃ t, runAll is s = .next t ∧ t.pc = s.pc + is.length ∧ t.status = s.status :=
  ⟨_, h s rfl, rfl, rfl⟩

namespace BlockOperation

variable {n : Nat} {ok : Block → Prop} {f : Block → Block} {single : BitVec 16 → Instr} {grid : Instr}

theorem updatesGrid_single (h : BlockOperation n ok f single grid) {blk : BitVec 16} {g : List (Nat × Elem)}
    (hb : blk.toNat < n) (hok : ok (blockRead g blk.toNat)) :
    UpdatesGrid [single blk] g (blockUpdate f g blk.toNat) := by
  rintro s rfl
  exact runAll_cons (h.exec_single blk s hb hok) []

theorem updatesGrid_grid (h : BlockOperation n ok f single grid) {g : List (Nat × Elem)}
    (hok : ∀ b, b < n → ok (blockRead g b)) : UpdatesGrid [grid] g (gridUpdate f n g) := by
  rintro s rfl
  exact runAll_cons (h.exec_grid s hok) []

end BlockOperation

/-! #### The pseudo-instructions (R154) -/

theorem updatesGrid_qdq {blk : BitVec 16} (hb : blk.toNat < Config.hw.nblk) (g : List (Nat × Elem)) :
    UpdatesGrid (expand (.qdq blk)) g
      (blockUpdate dequantBlock (blockUpdate quantBlock g blk.toNat) blk.toNat) := by
  rintro s rfl
  exact runAll_qdq hb s

/-- `DQT.G` straight after `QNT.G` cannot fault (43_quantization.md R143). -/
theorem updatesGrid_qdqG (g : List (Nat × Elem)) : UpdatesGrid (expand .qdqG) g
    (gridUpdate dequantBlock Config.hw.nblk (gridUpdate quantBlock Config.hw.nblk g)) := by
  refine (qnt_blockOperation.updatesGrid_grid fun _ _ => trivial).append
    (dqt_blockOperation.updatesGrid_grid fun b hb => ?_)
  rw [blockRead_gridUpdate, if_pos hb]
  exact blockFits_quantBlock _

theorem updatesGrid_codec {blk : BitVec 16} (hb : blk.toNat < Config.hw.nblk) (g : List (Nat × Elem)) :
    ∃ g', UpdatesGrid (expand (.codec blk)) g g' :=
  ⟨_, (fwd2d_blockOperation.updatesGrid_single hb trivial).append
    ((updatesGrid_qdq hb _).append (inv2d_blockOperation.updatesGrid_single hb trivial))⟩

/-- `CODEC.G` is the four middle stages of `RUN` (R150, R154). -/
theorem updatesGrid_codecG (g : List (Nat × Elem)) : UpdatesGrid (expand .codecG) g (codecGrid Config.hw g) :=
  (fwd2d_blockOperation.updatesGrid_grid fun _ _ => trivial).append
    ((updatesGrid_qdqG _).append (inv2d_blockOperation.updatesGrid_grid fun _ _ => trivial))

/-- Settles O35: each expansion only updates the grid. -/
theorem pseudoInstructionsNeverFault : Obligations.PseudoInstructionsNeverFault := by
  refine ⟨fun s blk hb => ⟨?_, (updatesGrid_qdq hb s.grid).exists_next⟩,
    fun s => ⟨(updatesGrid_codecG s.grid).exists_next, (updatesGrid_qdqG s.grid).exists_next⟩⟩
  obtain ⟨g', hg'⟩ := updatesGrid_codec hb s.grid
  exact hg'.exists_next

/-! #### `RUN` and the six commands (R150) -/

theorem runAll_recon (s : State) : runAll [.recon] s =
    .next ((s.withPout (reconPout Config.hw s.grid s.pout)).withPc (s.pc + 1)) := by
  have hrecon : exec .recon s = _ := reconOn_eq Config.hw s
  rw [runAll_cons hrecon, runAll]

/-- With the right shape and a partitioned grid `g`, the six commands leave what `RUN` leaves, but for `pc`. -/
theorem runAll_sixCommands {s : State} {g : List (Nat × Elem)} (hs : shapeOk Config.hw s = true)
    (hg : partGrid Config.hw s.pin s.grid = some g) :
    runAll [.part, .fwd2dG, .qntG, .dqtG, .inv2dG, .recon] s =
      .next (((s.withGrid (codecGrid Config.hw g)).withPout
        (reconPout Config.hw (codecGrid Config.hw g) s.pout)).withPc (s.pc + 6)) := by
  have hpart : exec .part s = .next ((s.withGrid g).withPc (s.pc + 1)) := partOn_eq Config.hw s hs hg
  have hcodec : runAll (expand .codecG) ((s.withGrid g).withPc (s.pc + 1)) =
      .next ((s.withGrid (codecGrid Config.hw g)).withPc (s.pc + 5)) := updatesGrid_codecG g _ rfl
  have hsplit : [.part, .fwd2dG, .qntG, .dqtG, .inv2dG, .recon] = Instr.part :: (expand .codecG ++ [.recon]) := rfl
  rw [hsplit, runAll_cons hpart, runAll_append hcodec, runAll_recon]
  simp only [State.withPc_withPout, State.withPc_withPc, State.withPc_grid, State.withGrid_grid, State.withPc_pout,
    State.withGrid_pout, State.withPc_pc]

/-- Settles O31: the shape fault of `RUN`, or the six commands over the partitioned grid. -/
theorem runIsTheSixCommands : Obligations.RunIsTheSixCommands := by
  refine fun s => ⟨fun hshape => ?_, fun hw hh hpin => ?_⟩
  · rw [exec_run_on, runOn_shape Config.hw s (shapeOk_eq_false_iff.2 hshape)]
    exact faultTaken_raise .inputShape _ s
  · have hs : shapeOk Config.hw s = true := (shapeOk_iff _ _).2 ⟨hw, hh⟩
    have hwritten : pinWritten Config.hw s := fun a ha => Option.isSome_iff_ne_none.2 (hpin a ha)
    obtain ⟨g, hg⟩ := partGrid_of_pinWritten hwritten
    refine ⟨_, runAll_sixCommands hs hg, State.withPc_pc _ _, ?_, ?_⟩
    · rw [exec_run_on, runOn_eq Config.hw s hs hg, State.withPc_withPc]
    · simp only [State.withPc_grid, State.withPc_pout, State.withPout_grid, State.withPout_pout, State.withGrid_grid]

/-! #### A second `RUN` or `RECON` (R150 and 40_partition_reconstruct.md R95, corner cases) -/

section Again

variable {c : Cfg} {s t u : State}

theorem shapeOk_of_whenShapeOk_unfaulted {body : Result} (h : whenShapeOk c s body = .next t)
    (ht : faulted t = false) : shapeOk c s = true := by
  by_contra hs
  rw [whenShapeOk_fault (Bool.eq_false_of_not_eq_true hs)] at h
  obtain ⟨u, hu, hfault, -⟩ := faultTaken_raise .inputShape (s.inH ++ s.inW) s
  rw [h] at hu
  cases hu
  rw [(faulted_iff t).2 hfault] at ht
  cases ht

/-- A `RUN` with the right shape that answers a next state has stored the transformed partitioned grid and its
reconstruction, and only those. -/
theorem runOn_next (hs : shapeOk c s = true) (h : runOn c s = .next t) :
    ∃ g, partGrid c s.pin s.grid = some g ∧
      t = ((s.withGrid (codecGrid c g)).withPout (reconPout c (codecGrid c g) s.pout)).withPc (s.pc + 1) := by
  cases hg : partGrid c s.pin s.grid with
  | none =>
    rw [runOn_unwritten c s hs hg] at h
    cases h
  | some g =>
    rw [runOn_eq c s hs hg] at h
    cases h
    exact ⟨g, rfl, rfl⟩

/-- The four middle stages work block by block. -/
theorem blockRead_codecGrid (g : List (Nat × Elem)) {b : Nat} (hb : b < c.nblk) :
    blockRead (codecGrid c g) b =
      inv2D c.matrix (dequantBlock (quantBlock (fwd2D c.matrix (blockRead g b)))) := by
  simp only [codecGrid, blockRead_gridUpdate, if_pos hb]

/-- The two grids have the same elements; outside the grid they may differ. -/
def SameElements (c : Cfg) (g h : List (Nat × Elem)) : Prop := ∀ e, e < c.gridSize → gridRead g e = gridRead h e

theorem SameElements.blockRead_eq {g h : List (Nat × Elem)} (hgh : SameElements c g h) {b : Nat} (hb : b < c.nblk) :
    blockRead g b = blockRead h b := by
  funext r col
  refine hgh _ ?_
  simp only [elemIndex, Cfg.gridSize]
  omega

theorem SameElements.codec {g h : List (Nat × Elem)} (hgh : SameElements c g h) :
    SameElements c (codecGrid c g) (codecGrid c h) := by
  intro e he
  have hb : e / 64 < c.nblk := by
    simp only [Cfg.gridSize] at he
    omega
  rw [gridRead_eq_blockRead, gridRead_eq_blockRead (codecGrid c h), blockRead_codecGrid g hb,
    blockRead_codecGrid h hb, hgh.blockRead_eq hb]

/-- Every byte of `POUT` is written, and from the grid alone. -/
theorem SameElements.lookup_reconPout_eq {g h : List (Nat × Elem)} (hgh : SameElements c g h)
    (pout pout' : List Host.Cell) {a : Nat} (ha : a < c.pinSize) :
    Memory.lookup (reconPout c g pout) a = Memory.lookup (reconPout c h pout') a := by
  have hindex : a / 3 < c.npix := by
    simp only [Cfg.pinSize, Config.nch] at ha
    omega
  obtain ⟨hx, hy⟩ := pixel_of_index hindex
  rw [lookup_reconPout, lookup_reconPout, if_pos ha, if_pos ha, pixelOut, pixelOut, hgh _ (pixelElem_lt hx hy)]

theorem lookup_reconPout_again (g : List (Nat × Elem)) (pout : List Host.Cell) (a : Nat) :
    Memory.lookup (reconPout c g (reconPout c g pout)) a = Memory.lookup (reconPout c g pout) a := by
  by_cases ha : a < c.pinSize
  · exact SameElements.lookup_reconPout_eq (fun _ _ => rfl) _ _ ha
  · rw [lookup_reconPout, if_neg ha]

/-- `PART` forgets the grid the first `RUN` left, so the second works on the same elements. -/
theorem runOn_again (hs : shapeOk c s = true) (h : runOn c s = .next t) (h' : runOn c t = .next u) :
    SameElements c u.grid t.grid ∧ ∀ a, a < c.pinSize → Memory.lookup u.pout a = Memory.lookup t.pout a := by
  obtain ⟨g, hg, ht⟩ := runOn_next hs h
  have hst : shapeOk c t = true := by
    rw [ht]
    exact hs
  obtain ⟨g', hg', rfl⟩ := runOn_next hst h'
  subst ht
  have hsame : SameElements c (codecGrid c g') (codecGrid c g) :=
    SameElements.codec fun e he => partGrid_forgets hg' hg he
  exact ⟨hsame, fun a ha => hsame.lookup_reconPout_eq _ _ ha⟩

theorem reconOn_again (h : reconOn c s = .next t) (h' : reconOn c t = .next u) (a : Nat) :
    Memory.lookup u.pout a = Memory.lookup t.pout a := by
  rw [reconOn_eq] at h h'
  cases h
  cases h'
  exact lookup_reconPout_again s.grid s.pout a

end Again

/-- Settles O32: an unfaulted `RUN` had the right shape, and the shape is still right for the second. -/
theorem runAndReconAreRepeatable : Obligations.RunAndReconAreRepeatable :=
  ⟨fun _ _ _ _ ht h h' => runOn_again (shapeOk_of_whenShapeOk_unfaulted h ht) h h',
    fun _ _ _ h h' => reconOn_again h h'⟩

end Sys2Proof.Machine

/-! ### Exceptions (spec 60_exceptions.md): what raising a fault records, which command raises which fault, and how a
fault ends -/

namespace Sys2Proof.Machine

open Sys2Proof.Claims

/-! #### Raising a fault (R165) -/

/-- From a `STATUS` of 0 a fault leaves its own code alone (R160). -/
theorem status_of_raise {f : HwFault} {info : Word} {s t : State} (h : raise f info s = .next t)
    (hz : s.status = 0) : t.status = statusFaulted 0 (causeCode f) := by
  cases h
  simp [hz]

/-- Settles O36: the record of any raised fault, and the codes of R160. -/
theorem raiseRecordsTheFault : Obligations.RaiseRecordsTheFault := by
  intro f info s _
  obtain ⟨t, ht, hfault⟩ := faultTaken_raise f info s
  exact ⟨t, ht, hfault, fun hz => (status_of_raise ht hz).trans (statusFaulted_zero f)⟩

/-! #### Which command raises which fault (R160 to R163) -/

/-- Each block command is a body behind the check of its block index. -/
theorem exec_blockCommand {blk : BitVec 16} {i : Instr} (h : i ∈ blockCommands blk) (s : State) :
    ∃ body, exec i s = onBlock Config.hw blk (encode i) s body := by
  simp only [blockCommands, List.mem_cons, List.not_mem_nil, or_false] at h
  obtain rfl | rfl | rfl | rfl := h
  · exact ⟨_, exec_fwd2d_on blk s⟩
  · exact ⟨_, exec_qnt_on blk s⟩
  · exact ⟨_, exec_dqt_on blk s⟩
  · exact ⟨_, exec_inv2d_on blk s⟩

/-- Settles O9: the check of the block index fails, and raises with the command's own word. -/
theorem illFormedBlockCommandFaults : Obligations.IllFormedBlockCommandFaults := by
  intro blk s i hblk hi
  have hout : ¬ blk.toNat < Config.hw.nblk := Nat.not_lt.2 hblk
  obtain ⟨body, hexec⟩ := exec_blockCommand hi s
  rw [hexec, onBlock_illegal hout]
  exact faultTaken_raise .illegalCommand _ s

/-- Settles O33: the shape check of `PART` and `RUN` fails before anything is touched; `RECON` has none. -/
theorem declaredShapeIsCheckedFirst : Obligations.DeclaredShapeIsCheckedFirst := by
  intro s hne
  have hshape : shapeOk Config.hw s = false := shapeOk_eq_false_iff.2 (not_and_or.2 hne)
  have hfault := faultTaken_raise .inputShape (s.inH ++ s.inW) s
  obtain ⟨t, ht, honly, -⟩ := reconOn_next Config.hw s
  refine ⟨?_, ?_, t, ht, honly⟩
  · rw [exec_part_on, partOn_shape Config.hw s hshape]
    exact hfault
  · rw [exec_run_on, runOn_shape Config.hw s hshape]
    exact hfault

/-- The faults of well-formed commands: the shape of `PART` and `RUN`, and the overflows; none is illegal. -/
theorem causes_of_wf {i : Instr} {s : State} {f : HwFault} {info : Word} (hi : i.wf = true)
    (hc : Causes Config.hw i s f info) :
    f = .inputShape ∧ (i = .part ∨ i = .run) ∨ f = .arithOverflow ∧ mayOverflow i = true := by
  cases f with
  | inputShape => exact .inl ⟨rfl, hc.1⟩
  | arithOverflow =>
    refine .inr ⟨rfl, ?_⟩
    obtain ⟨rfl | rfl, -⟩ | ⟨⟨b, rfl⟩ | rfl, -⟩ := hc <;> rfl
  | illegalCommand =>
    have hnot : i.wf = false := hc.2
    rw [hi] at hnot
    cases hnot

/-- Settles O37: a completed command keeps `STATUS`; a faulted one leaves the code of a cause it can have. -/
theorem causesByCommand : Obligations.CausesByCommand := by
  intro i s t hi hz h
  obtain ⟨vd, grid, pout, rfl, -⟩ | ⟨f, info, grid, rfl, hc, -⟩ := exec_cases h
  · exact .inl hz
  · right
    rw [State.withFinfo_status, State.withStatus_status, hz, statusFaulted_zero]
    obtain ⟨rfl, hshape⟩ | ⟨rfl, hover⟩ := causes_of_wf hi hc
    · exact .inl ⟨rfl, hshape⟩
    · exact .inr ⟨rfl, hover⟩

/-! #### A fault stays until reset (R166) -/

theorem hostAct_writeCmd (w : Word) (s : State) : hostAct (.writeReg 0x00 w) s = cmdWrite w s := rfl

theorem hostAct_reset (s : State) : hostAct .reset s = .next (resetMachine s) := rfl

@[simp] theorem faulted_resetMachine (s : State) : faulted (resetMachine s) = false := rfl

@[simp] theorem resetMachine_finfo (s : State) : (resetMachine s).finfo = 0 := rfl

/-- Settles O38: an action of the host is a discarded `CMD` write, a reset, or an access that keeps the record. -/
theorem faultsAreStickyUntilReset : Obligations.FaultsAreStickyUntilReset := by
  intro s hf
  refine ⟨fun w => ?_, fun a t hne h => ?_,
    ⟨_, hostAct_reset s, faulted_resetMachine s, resetMachine_finfo s⟩⟩
  · rw [hostAct_writeCmd, cmdWrite_faulted hf]
  · obtain ⟨w, -, hw⟩ | ⟨hreset, -⟩ | hacc := hostActOn_cases h
    · rw [cmdWrite_faulted hf] at hw
      cases hw
      exact ⟨rfl, rfl, rfl⟩
    · exact absurd hreset hne
    · exact ⟨hacc.status, hacc.finfo, hacc.pc⟩

end Sys2Proof.Machine


/-! ### Reset and hazards (spec 70_reset_and_hazards.md): the run as a list of host actions, the values reset gives, and
the bytes it leaves without one -/

namespace Sys2Proof.Machine

open Sys2Proof.Claims

/-! #### The step (R185) -/

theorem step_of_no_action {s : State} (h : s.pending = []) : step s = .next s := by
  rw [step, nextAction, h]

theorem step_of_action {s : State} {a : HostAction} {rest : List HostAction} (h : s.pending = a :: rest) :
    step s = hostAct a (s.withPending rest) := by
  rw [step, nextAction, h]

/-- Settles O1: the two forms of the host's list. -/
theorem stepTakesTheNextHostAction : Obligations.StepTakesTheNextHostAction :=
  ⟨fun _ => step_of_no_action, fun _ _ _ => step_of_action⟩

/-! #### The values of reset (R181) -/

theorem hasResetValues_reset : hasResetValues State.reset :=
  ⟨gridRead_nil, fun i => ⟨Vector.getElem_replicate i.isLt, Vector.getElem_replicate i.isLt⟩, rfl, rfl, rfl, rfl,
    fun a => ⟨Memory.lookup_nil a, Memory.lookup_nil a⟩, rfl⟩

/-- A reset keeps of the old state only the model's own fields (log 5, log 7, log 8), of which R37 says nothing. -/
theorem hasResetValues_resetMachine (s : State) : hasResetValues (resetMachine s) := hasResetValues_reset

@[simp] theorem resetMachine_pending (s : State) : (resetMachine s).pending = s.pending := rfl

/-- Settles O41: the values of `State.reset`, which the host's action gives again with the list as it was. -/
theorem resetPutsEveryValue : Obligations.ResetPutsEveryValue :=
  ⟨hasResetValues_reset, fun s rest h =>
    ⟨resetMachine (s.withPending rest), step_of_action h, hasResetValues_resetMachine _, resetMachine_pending _⟩⟩

/-! #### Bytes nothing has written (R189, 93_implementation_defined.md U12) -/

theorem pinValue_of_unwritten {a : Nat} {s : State} (h : Memory.lookup s.pin a = none) :
    pinValue a s = Config.freePin s.epoch a := by
  rw [pinValue, h, Option.getD_none]

theorem poutValue_of_unwritten {a : Nat} {s : State} (h : Memory.lookup s.pout a = none) :
    poutValue a s = Config.freePout s.epoch a := by
  rw [poutValue, h, Option.getD_none]

/-- Settles O34: with an unwritten byte `PIN` has no partition, and a read of such a byte answers its free value. -/
theorem unwrittenBytes : Obligations.UnwrittenBytes := by
  refine ⟨fun s a hw hh ha hnone => ?_, fun s a ha hnone => ?_, fun s a ha hnone => ?_⟩
  · have hshape : shapeOk Config.hw s = true := (shapeOk_iff _ _).2 ⟨hw, hh⟩
    have hgrid : partGrid Config.hw s.pin s.grid = none := partGrid_of_not_pinWritten ha hnone
    exact ⟨partOn_unwritten Config.hw s hshape hgrid, runOn_unwritten Config.hw s hshape hgrid⟩
  · rw [← poutValue_of_unwritten hnone]
    exact inSpace_ok ha _ _
  · rw [← pinValue_of_unwritten hnone]
    exact inSpace_ok ha _ _

end Sys2Proof.Machine
